-- ==== Sys2Proof/Word.lean ====
section
/-! DEFINITION. The word types of the lila Huffman codec core (10_state.md R20, 30_encoding.md R80,
00_scope.md R9, R13). -/

namespace Sys2Proof

/-- A symbol, 8 bits (R9 `SYM_W`, R16). -/
abbrev Symbol := BitVec 8

/-- A code pattern or a walk path, 32 bits (R9 `CODE_W`). -/
abbrev Code := BitVec 32

/-- A code length or a path length, 6 bits (R9 `LEN_W`). -/
abbrev Len := BitVec 6

/-- A command word, 16 bits (R80). -/
abbrev CmdWord := BitVec 16

/-- A finite sequence of bits, the first bit in time first (R13). -/
abbrev BitString := List Bool

end Sys2Proof
end

