-- ==== Sys2Proof/Syntax.lean ====
section
/-! DEFINITION. The commands of the core: one constructor per row of spec/opcode_table.json (30_encoding.md R81). -/

namespace Sys2Proof

/-- A decoded command. The one operand is the 8-bit symbol, every value of which is legal (R82). -/
inductive Instr where
  | lookup (sym : Symbol)   -- LOOKUP (R111)
  | encode (sym : Symbol)   -- ENCODE (R140)
  | decode                  -- DECODE (R150)
  deriving DecidableEq, Repr

end Sys2Proof
end

