-- ==== Sys2Proof/Decode.lean ====
section
/-! DEFINITION. Command decode, total on all 65536 words (30_encoding.md R85), and the encoder (R88, R89). -/

namespace Sys2Proof

/-- Why a word is `Illegal` (R86). -/
inductive DecodeError where
  | reservedField    -- `RSV ≠ 0`, whatever the `OP` (R83)
  | reservedOpcode   -- `OP` is 0x0 or 0x4..0xF (R81, R86)
  | decodeOperand    -- `OP = 0x3` with `SYM ≠ 0` (R84)
  deriving DecidableEq, Repr

/-- `OP = cmd[15:12]` (R80). -/
def opField (cmd : CmdWord) : BitVec 4 := cmd.extractLsb' 12 4

/-- `RSV = cmd[11:8]` (R80). -/
def rsvField (cmd : CmdWord) : BitVec 4 := cmd.extractLsb' 8 4

/-- `SYM = cmd[7:0]`, used unchanged (R80, R82). -/
def symField (cmd : CmdWord) : Symbol := cmd.extractLsb' 0 8

/-- `DecodeCmd` (R85): the reserved field is looked at first (60_exceptions.md R179). Reads no state. -/
def decodeCmd (cmd : CmdWord) : Except DecodeError Instr :=
  if rsvField cmd ≠ 0x0#4 then .error .reservedField
  else if opField cmd = 0x1#4 then .ok (.lookup (symField cmd))
  else if opField cmd = 0x2#4 then .ok (.encode (symField cmd))
  else if opField cmd = 0x3#4 then
    if symField cmd = 0x00#8 then .ok .decode else .error .decodeOperand
  else .error .reservedOpcode

/-- The word of a command (R88, R89): `LOOKUP s` is `0x1000 | s`, `ENCODE s` is `0x2000 | s`, `DECODE` is `0x3000`. -/
def encodeCmd (i : Instr) : CmdWord :=
  match i with
  | .lookup sym => 0x1000#16 ||| sym.setWidth 16
  | .encode sym => 0x2000#16 ||| sym.setWidth 16
  | .decode     => 0x3000#16

/-- What the decoder reads from a command whose bits are `w` as spec/opcode_table.json numbers them. A command is
always one 16-bit word (R80, R87) and the port carries words, not bytes, so there is no byte order to apply; bits above
`nbits` are zero, and no command is longer than 16 bits. -/
def decodeTableWord (nbits w : Nat) : Option Instr :=
  if w % 2 ^ nbits < 2 ^ 16 then
    match decodeCmd (BitVec.ofNat 16 (w % 2 ^ nbits)) with
    | .ok i    => some i
    | .error _ => none
  else none

end Sys2Proof
end

