-- ==== Sys2Proof/Config.lean ====
section
/-! DEFINITION. What an implementation fixes: the parameters of 00_scope.md R9 that a definition uses, the type of the
code table (40_code_table.md R100, R101), and the two open parameters of 00_scope.md R10. -/

namespace Sys2Proof

/-- One ROM entry `(code, bits)` (R100), held as two fields as R101 allows. -/
structure RomEntry where
  code : Code
  bits : Len
  deriving DecidableEq, Repr, Inhabited

/-- The 256 entries of the code-table ROM, indexed by symbol value (R33, R100). -/
abbrev CodeTable := Vector RomEntry 256

/-- The smallest legal code length (R9 `MINBITS_ARCH`). -/
abbrev Config.minBits : Nat := 1

/-- The largest legal code length (R9 `MAXBITS_ARCH`), the trie's depth bound (R122). -/
abbrev Config.maxBits : Nat := 32

/-- The longest code of the reference table (R9 `MAXBITS_REF`, R107). -/
abbrev Config.maxBitsRef : Nat := 27

/-- The ROM contents of this hardware, the open parameter `CODE_TABLE` of R10: the spec gives 3 of its 256 entries and
forbids filling in the others (40_code_table.md, opening warning). A constant with no body: nothing can be proved of it
but under the premise `AdmissibleTable Config.codeTable` (R108). UNVERIFIED in its entries; log entry 1. Safe. -/
opaque Config.codeTable : CodeTable

/-- How the external sink packs its bits into bytes and pads the last one, the open parameter `SINK_PACKING` of R10
(R53: no property of the core, and no rule depends on it). A function with no body; log entry 8. Safe. -/
opaque Config.sinkPacking : BitString → List (BitVec 8)

end Sys2Proof
end

