-- ==== Sys2Proof/Machine/Bits.lean ====
section
/-! DEFINITION. Bit strings of words (00_scope.md R13). -/

namespace Sys2Proof.Machine

/-- `bitstr(c, n)`, the string `c[n-1] ... c[0]`, most significant bit first (R13, R51). -/
def bitstr (c : Code) : Nat → BitString
  | 0     => []
  | n + 1 => c.getLsbD n :: bitstr c n

end Sys2Proof.Machine
end

