-- ==== Sys2Proof/Machine/Rom.lean ====
section
/-! DEFINITION. The code-table ROM: reading it and what its entries must satisfy (40_code_table.md R100 to R108). -/

namespace Sys2Proof.Machine

/-- `RomRead(v)`: the entry of symbol `v`, in one access with no side effect (R110). -/
def romRead (T : CodeTable) (v : Symbol) : RomEntry := T[v.toNat]'v.isLt

/-- An entry's code as the bit string it stands for (R103). -/
def codeString (e : RomEntry) : BitString := bitstr e.code e.bits.toNat

/-- R102: the length is in 1..32. -/
def lengthOk (e : RomEntry) : Bool :=
  Nat.ble Config.minBits e.bits.toNat && Nat.ble e.bits.toNat Config.maxBits

/-- R103: the code has no bit at or above its length. -/
def rangeOk (e : RomEntry) : Bool := Nat.blt e.code.toNat (2 ^ e.bits.toNat)

/-- Whether the code of `a` is a prefix of the code of `b`, for entries that satisfy R103: the leading `a.bits` bits of
`b`'s code are `a`'s code. -/
def entryPrefix (a b : RomEntry) : Bool :=
  Nat.ble a.bits.toNat b.bits.toNat &&
    Nat.beq (b.code.toNat / 2 ^ (b.bits.toNat - a.bits.toNat)) a.code.toNat

/-- R104 over a list of entries: of two entries at different places neither is a prefix of the other. -/
def prefixFree : List RomEntry → Bool
  | []      => true
  | e :: es => es.all (fun d => !entryPrefix e d && !entryPrefix d e) && prefixFree es

/-- The facts of the reference table that the source pins (R107), not checked at reset. -/
def pinnedRows (T : CodeTable) : Bool :=
  romRead T 0#8 == ⟨0x0#32, 2#6⟩ && romRead T 1#8 == ⟨0x4#32, 3#6⟩ &&
    romRead T 255#8 == ⟨0x623FE66#32, 27#6⟩ &&
    T.toList.all (fun e => Nat.ble e.bits.toNat Config.maxBitsRef) &&
    T.toList.all (fun e => !(e == ⟨0x1#32, 1#6⟩))

end Sys2Proof.Machine
end

