-- ==== Sys2Proof/Machine/Trie.lean ====
section
/-! DEFINITION. The decode trie: the leaf test, the construction and the reset-time check (41_trie.md R120 to R129). -/

namespace Sys2Proof.Machine

/-- A decode trie: a leaf with one symbol, or an internal node with exactly two children, zero-branch first (R120). -/
inductive Trie where
  | leaf (sym : Symbol)
  | internal (zero one : Trie)
  deriving DecidableEq, Repr

/-- The scan of the table for `(p, n)`: the least symbol, counted from `v`, whose entry is `(p, n)` (R122). -/
def leafFrom (p : Code) (n : Len) : List RomEntry → Nat → Option Symbol
  | [], _      => none
  | e :: es, v =>
    if Nat.beq e.bits.toNat n.toNat && Nat.beq e.code.toNat p.toNat then some (BitVec.ofNat 8 v)
    else leafFrom p n es (v + 1)

/-- The leaf test `Leaf(p, n)` (R125). -/
def leafTest (T : CodeTable) (p : Code) (n : Len) : Option Symbol := leafFrom p n T.toList 0

/-- `Build(T, p, n)` with `k = 32 - n` levels left below the bound (R122): no answer where `n = 32` is no leaf. -/
def buildFrom (T : CodeTable) : Nat → Code → Len → Option Trie
  | 0, p, n     => (leafTest T p n).map Trie.leaf
  | k + 1, p, n =>
    match leafTest T p n with
    | some v => some (.leaf v)
    | none   =>
      match buildFrom T k (p <<< 1) (n + 1#6) with
      | none      => none
      | some zero =>
        match buildFrom T k (p <<< 1 ||| 1#32) (n + 1#6) with
        | none     => none
        | some one => some (.internal zero one)

/-- `BuildTrie(T)`, from the empty prefix (R122); `none` is the table whose construction raises `MALFORMED_TABLE`. -/
def buildTrie (T : CodeTable) : Option Trie := buildFrom T Config.maxBits 0#32 0#6

/-- The reset-time check of R124: R102, R103, R104, and R105 in the form "every node the construction visits is a leaf
or has two children that both lead to leaves". -/
def tableOk (T : CodeTable) : Bool :=
  T.toList.all lengthOk && T.toList.all rangeOk && prefixFree T.toList && (buildTrie T).isSome

/-- R102: "for every symbol `v`, `1 ≤ bits_v ≤ 32`". -/
def LengthsLegal (T : CodeTable) : Prop :=
  ∀ v, 1 ≤ (romRead T v).bits.toNat ∧ (romRead T v).bits.toNat ≤ 32

/-- R103: "for every symbol `v`, `code_v < 2^bits_v`". -/
def CodesInRange (T : CodeTable) : Prop :=
  ∀ v, (romRead T v).code.toNat < 2 ^ (romRead T v).bits.toNat

/-- R104: of two distinct symbols neither code is a prefix of the other, as bit strings. -/
def CodesPrefixFree (T : CodeTable) : Prop :=
  ∀ u v, u ≠ v → ¬ codeString (romRead T u) <+: codeString (romRead T v)

/-- R105: "every 32-bit string has some symbol's code bit string as a prefix". -/
def CodesComplete (T : CodeTable) : Prop :=
  ∀ x : BitString, x.length = 32 → ∃ v, codeString (romRead T v) <+: x

/-- `AdmissibleTable(T)` (R108): the check of R124 and every pinned row of R107. A premise of claims; never proved of
`Config.codeTable`. -/
abbrev AdmissibleTable (T : CodeTable) : Prop := tableOk T = true ∧ pinnedRows T = true

/-- The node reached from a node by a bit string, if it is one (R121). -/
def trieNode : Trie → BitString → Option Trie
  | t, []                      => some t
  | .leaf _, _ :: _            => none
  | .internal zero _, false :: s => trieNode zero s
  | .internal _ one, true :: s   => trieNode one s

/-- The symbols of the leaves, in path order (R129). -/
def trieLeaves : Trie → List Symbol
  | .leaf v            => [v]
  | .internal zero one => trieLeaves zero ++ trieLeaves one

/-- The number of internal nodes (R128). -/
def trieInternals : Trie → Nat
  | .leaf _            => 0
  | .internal zero one => trieInternals zero + trieInternals one + 1

/-- The length of the longest path to a leaf (R128). -/
def trieDepth : Trie → Nat
  | .leaf _            => 0
  | .internal zero one => max (trieDepth zero) (trieDepth one) + 1

/-- The longest code length of a table, `max_v bits_v` (R107, R156). -/
def longestCode (T : CodeTable) : Nat := T.toList.foldr (fun e m => max e.bits.toNat m) 0

end Sys2Proof.Machine
end

