-- ==== Sys2Proof/Machine/State.lean ====
section
/-! DEFINITION. The state of the core, the moves of its host, the reasons a step can stop, and the state right after
reset (10_state.md R20 to R40, 20_memory.md R69, 70_reset_and_hazards.md R190). Plain data. -/

namespace Sys2Proof.Machine

/-- The sticky fault code `FAULT`; codes 4..15 are never produced (R28, R37), so they have no name. -/
inductive FaultCode where
  | noFault           -- 0 NONE
  | malformedTable    -- 1 MALFORMED_TABLE (R173)
  | illegalCommand    -- 2 ILLEGAL_COMMAND (R174)
  | domainViolation   -- 3 DOMAIN_VIOLATION (R175)
  deriving DecidableEq, Repr

/-- What the host puts at the command port: a command word (R80), or a call at a host interface that takes a wider
integer for the symbol, which is checked before a word is formed (60_exceptions.md R175). -/
inductive HostRequest where
  | word (w : CmdWord)
  | lookupInt (n : Nat)
  | encodeInt (n : Nat)
  deriving DecidableEq, Repr

/-- What the host does during one step (R69, R70, R190). A register read is no move: it has no effect (R23). -/
inductive HostMove where
  | tick                                -- nothing: the core takes its own step
  | present (r : HostRequest)           -- a request at the port; the core takes its own step, accepting it if ready
  | reset                               -- reset; it takes precedence over the core's own step (R179)
  | presentAtReset (r : HostRequest)    -- reset in the same step as a request (R179)
  | setSource (bits : BitString)        -- fill `SRC` (R69)
  | sourceFromSink                      -- `SRC <- SINK` (R70)
  | setSink (bits : BitString)          -- read back or flush `SINK` (R69)
  deriving DecidableEq, Repr

/-- The state of the core (R20), the external bit strings (R35), the held requests (R200) and the host's moves. -/
structure State where
  /-- `CODE_TABLE` (R33): no step writes it. -/
  rom       : CodeTable
  /-- `READY`, STATUS[1] (R29). -/
  ready     : Bool
  /-- `BUSY`, STATUS[0] (R32). -/
  busy      : Bool
  /-- `RES_VALID`, STATUS[2] (R36). -/
  resValid  : Bool
  /-- `EOS`, STATUS[3] (R36). -/
  eos       : Bool
  /-- `FAULT`, STATUS[7:4] (R28). -/
  fault     : FaultCode
  /-- `RES_SYM` (R25). -/
  resSym    : Symbol
  /-- `RES_CODE` (R26). -/
  resCode   : Code
  /-- `RES_BITS` (R27). -/
  resBits   : Len
  /-- `WALK_P` (R30). -/
  walkP     : Code
  /-- `WALK_N` (R30). -/
  walkN     : Len
  /-- `SINK`, the bits appended so far (R35). -/
  sink      : BitString
  /-- `SRC`, the bits not yet read (R35). -/
  src       : BitString
  /-- Requests at the command port, oldest first: "held, not lost and not executed" until the port is ready (R200). -/
  pending   : List HostRequest
  /-- The MODEL's own field: the host's coming moves, one per step; after the last the host does nothing more
  (log entry 5). -/
  hostMoves : List HostMove
  deriving DecidableEq, Repr

/-- Why the machine stops: the core is held by a sticky fault, of which only a reset leaves (R177), and the host makes
no further move. Raised by `step` alone, never by a command. Safe: the spec gives the core no step there. -/
inductive Fault where
  /-- `FAULT = MALFORMED_TABLE` (R173). Raised by `step`. Safe. -/
  | malformedTable
  /-- `FAULT = ILLEGAL_COMMAND` (R174). Raised by `step`. Safe. -/
  | illegalCommand
  /-- `FAULT = DOMAIN_VIOLATION` (R175). Raised by `step`. Safe. -/
  | domainViolation
  deriving DecidableEq, Repr

/-- A step the model gives no meaning. -/
inductive Refusal where
  /-- A command not modelled yet, by its mnemonic; raised in `exec` only. Safe. -/
  | notModelled (mnemonic : String)
  /-- The host changes `SRC` while `BUSY = 1`: "`refuse` (no host move)" (93_implementation_defined.md U11, R202).
  Raised by a host move, never by a command. Safe. -/
  | sourceChangedDuringDecode
  /-- The host changes `SINK` while `BUSY = 1`, where R69 lets it only "between commands". Raised by a host move, never
  by a command. Safe. -/
  | sinkChangedDuringDecode
  deriving DecidableEq, Repr

/-- The state right after reset (R40, R190): `READY` or `FAULT` by the check of the ROM (R124), every other register 0.
The ROM is the open parameter (log entry 1); `SINK`, `SRC`, which a reset does not touch, and the port start empty
(DESIGN CHOICE, log entries 2, 4, 5). -/
def State.reset : State where
  rom       := Config.codeTable
  ready     := tableOk Config.codeTable
  busy      := false
  resValid  := false
  eos       := false
  fault     := if tableOk Config.codeTable then .noFault else .malformedTable
  resSym    := 0#8
  resCode   := 0#32
  resBits   := 0#6
  walkP     := 0#32
  walkN     := 0#6
  sink      := []
  src       := []
  pending   := []
  hostMoves := []

end Sys2Proof.Machine
end

