-- ==== Sys2Proof/Machine/Flags.lean ====
section
/-! DEFINITION. The flags and the `STATUS` word (10_state.md R24, R28, R36). -/

namespace Sys2Proof.Machine

/-- One bit as a 16-bit number, for `STATUS` (R24). -/
def flagWord (b : Bool) : BitVec 16 := if b then 1#16 else 0#16

/-- The 4 bits of `FAULT` (R28). -/
def faultBits (f : FaultCode) : BitVec 4 :=
  match f with
  | .noFault         => 0#4
  | .malformedTable  => 1#4
  | .illegalCommand  => 2#4
  | .domainViolation => 3#4

/-- `STATUS = zext_16(FAULT << 4 | EOS << 3 | RES_VALID << 2 | READY << 1 | BUSY)` (R24). -/
def statusWord (s : State) : BitVec 16 :=
  (faultBits s.fault).setWidth 16 <<< 4 ||| flagWord s.eos <<< 3 ||| flagWord s.resValid <<< 2 |||
    flagWord s.ready <<< 1 ||| flagWord s.busy

/-- The acceptance of a legal command clears `RES_VALID` and `EOS` (R36, R201). -/
def clearFlags (s : State) : State := { s with resValid := false, eos := false }

/-- The port accepts a command: `CmdReady = (BUSY = 0 and READY = 1 and FAULT = 0)` (70_reset_and_hazards.md R200). -/
def cmdReady (s : State) : Bool := !s.busy && s.ready && decide (s.fault = .noFault)

end Sys2Proof.Machine
end

