-- ==== Sys2Proof/Machine/Ops.lean ====
section
/-! DEFINITION. The named operations over the registers, the sink, the source and the walk (00_scope.md R14), raising a
fault and resetting (60_exceptions.md R171, 70_reset_and_hazards.md R190). -/

namespace Sys2Proof.Machine

/-- `SinkAppend(n, d)`: one atomic append, which always succeeds (20_memory.md R55). -/
def sinkAppend (n : Len) (d : Code) (s : State) : State :=
  { s with sink := s.sink ++ bitstr d n.toNat }

/-- `SourceRead()`: the first bit of `SRC` and the state without it, or `none` for `EOS` (20_memory.md R57). -/
def sourceRead (s : State) : Option (Bool × State) :=
  match s.src with
  | []        => none
  | b :: rest => some (b, { s with src := rest })

/-- The result registers hold a command's result: symbol, code and length, `RES_VALID <- 1` (R25, R26, R27, R36). -/
def setResult (sym : Symbol) (code : Code) (bits : Len) (s : State) : State :=
  { s with resSym := sym, resCode := code, resBits := bits, resValid := true }

/-- EndOfStream: `EOS <- 1`, `RES_BITS` the bits consumed; no symbol is produced (43_decoder.md R151, R154). -/
def setEndOfStream (s : State) : State := { s with eos := true, resBits := s.walkN }

/-- A walk starts at the root, `BUSY <- 1` (43_decoder.md R150). -/
def startWalk (s : State) : State := { s with walkP := 0#32, walkN := 0#6, busy := true }

/-- A walk takes the edge `b`: zero-branch for 0, one-branch for 1 (43_decoder.md R151). -/
def advanceWalk (b : Bool) (s : State) : State :=
  { s with walkP := s.walkP <<< 1 ||| (if b then 1#32 else 0#32), walkN := s.walkN + 1#6 }

/-- A walk ends: back at the root, `BUSY <- 0` (43_decoder.md R151). -/
def endWalk (s : State) : State := { s with walkP := 0#32, walkN := 0#6, busy := false }

/-- `raise Fault(F)`: the first fault is kept, the current command ends, nothing else changes (60_exceptions.md R171).
This is the whole of taking an exception here: no trap entry, no handler, no saved state (R180), and no return but
`resetCore` (R181). -/
def raiseFault (f : FaultCode) (s : State) : State :=
  { s with fault := if s.fault = .noFault then f else s.fault, busy := false }

/-- `TrieInit()` (41_trie.md R124): check the ROM; `READY <- 1` with the trie built, or `FAULT <- MALFORMED_TABLE`. -/
def trieInit (s : State) : State :=
  if tableOk s.rom then { s with ready := true } else { s with ready := false, fault := .malformedTable }

/-- `Reset()` (70_reset_and_hazards.md R190): every register 0, then `TrieInit()`. The ROM, `SINK`, `SRC` and what the
port holds are not touched (R192, R200). -/
def resetCore (s : State) : State :=
  trieInit { s with ready := false, busy := false, resValid := false, eos := false, fault := .noFault,
                    resSym := 0#8, resCode := 0#32, resBits := 0#6, walkP := 0#32, walkN := 0#6 }

/-- `TRIE` as a view of the ROM (10_state.md R34, R40): the built trie where `READY = 1`, none before. -/
def trieOf (s : State) : Option Trie := if s.ready then buildTrie s.rom else none

end Sys2Proof.Machine
end

