-- ==== Sys2Proof/WellFormed.lean ====
section
/-! DEFINITION. When a command as its author writes it (a mnemonic and perhaps a number) is a legal command
(30_encoding.md R82, R84, R88). Every term of `Instr` is well formed by its type; a line of assembler need not be. -/

namespace Sys2Proof

/-- The three mnemonics (R88). -/
inductive AsmMnemonic where
  | lookup
  | encode
  | decode
  deriving DecidableEq, Repr

/-- A line of assembler after its lexing: a mnemonic and the operand written after it, if any (R88). -/
structure AsmLine where
  mnemonic : AsmMnemonic
  operand  : Option Nat
  deriving DecidableEq, Repr

/-- Why a line is refused, one name for each check of R88. -/
inductive AsmError where
  | missingOperand      -- LOOKUP or ENCODE with no operand
  | operandOutOfRange   -- a value outside 0..255: the source's domain violation, refused at assembly (R175)
  | unexpectedOperand   -- DECODE with an operand
  | unknownMnemonic     -- no command of R88, a `host:` line among them (raised by the lexer)
  | badOperand          -- an operand that is no decimal or hexadecimal number (raised by the lexer)
  | extraText           -- more than one operand (raised by the lexer)
  deriving DecidableEq, Repr

/-- The symbol of an integer, none outside the domain 0..255: never a truncation (R82, R175). -/
def symbolOfNat (n : Nat) : Option Symbol :=
  if n < 256 then some (BitVec.ofNat 8 n) else none

/-- The command of a line, or the check of R88 that refuses it. -/
def AsmLine.toInstr (l : AsmLine) : Except AsmError Instr :=
  match l.mnemonic, l.operand with
  | .lookup, none   => .error .missingOperand
  | .encode, none   => .error .missingOperand
  | .lookup, some n =>
    match symbolOfNat n with
    | some v => .ok (.lookup v)
    | none   => .error .operandOutOfRange
  | .encode, some n =>
    match symbolOfNat n with
    | some v => .ok (.encode v)
    | none   => .error .operandOutOfRange
  | .decode, none   => .ok .decode
  | .decode, some _ => .error .unexpectedOperand

/-- A line is well formed exactly when no check of R88 refuses it. -/
def AsmLine.WellFormed (l : AsmLine) : Bool :=
  match l.toInstr with
  | .ok _    => true
  | .error _ => false

end Sys2Proof
end

