-- ==== Sys2Proof/Machine/Operands.lean ====
section
/-! DEFINITION. The one operand form: the 8-bit symbol, used unchanged as the ROM index (30_encoding.md R82). -/

namespace Sys2Proof.Machine

/-- The ROM entry a symbol operand names (R82, R110). -/
def romOperand (sym : Symbol) (s : State) : RomEntry := romRead s.rom sym

/-- The command of a call at a host interface that takes an integer; `none` is a domain violation, for which no
command word is formed (60_exceptions.md R175). -/
def intOperand (command : Symbol → Instr) (n : Nat) : Option Instr := (symbolOfNat n).map command

end Sys2Proof.Machine
end

