-- ==== Sys2Proof/Machine/Decoder.lean ====
section
/-! DEFINITION. The command DECODE (43_decoder.md R150) and the decoder's micro-step (R151). -/

namespace Sys2Proof.Machine

/-- The acceptance of `DECODE`: flags cleared, the walk at the root, `BUSY <- 1` (R150). The walk itself is
`decStep`. -/
def execDecode (s : State) : Host.Outcome State Fault Refusal :=
  .next (startWalk (clearFlags s))

/-- `DecStep()`, enabled when `BUSY = 1`: the leaf test, then the depth guard, then one source read (R151, R179). -/
def decStep (s : State) : State :=
  match leafTest s.rom s.walkP s.walkN with
  | some v => endWalk (setResult v s.walkP s.walkN s)
  | none   =>
    if s.walkN = 32#6 then raiseFault .malformedTable s
    else
      match sourceRead s with
      | none         => endWalk (setEndOfStream s)
      | some (b, s1) => advanceWalk b s1

end Sys2Proof.Machine
end

