-- ==== Sys2Proof/Machine/Encoder.lean ====
section
/-! DEFINITION. The command ENCODE (42_encoder.md R140). -/

namespace Sys2Proof.Machine

/-- `ENCODE sym`: exactly one sink append of the symbol's code, and its entry in the result registers. No source or walk
effect; no exception (R140). -/
def execEncode (sym : Symbol) (s : State) : Host.Outcome State Fault Refusal :=
  let e := romOperand sym s
  .next (setResult sym e.code e.bits (sinkAppend e.bits e.code (clearFlags s)))

end Sys2Proof.Machine
end

