-- ==== Sys2Proof/Machine/Lookup.lean ====
section
/-! DEFINITION. The command LOOKUP (40_code_table.md R111). -/

namespace Sys2Proof.Machine

/-- `LOOKUP sym`: one ROM entry into the result registers. No sink, source or walk effect; no exception (R111). -/
def execLookup (sym : Symbol) (s : State) : Host.Outcome State Fault Refusal :=
  .next (setResult sym (romOperand sym s).code (romOperand sym s).bits (clearFlags s))

end Sys2Proof.Machine
end

