-- ==== Sys2Proof/Machine/Dispatch.lean ====
section
/-! DEFINITION. The meaning of each command from its acceptance on (70_reset_and_hazards.md R200). -/

namespace Sys2Proof.Machine

def exec (i : Instr) (s : State) : Host.Outcome State Fault Refusal :=
  match i with
  | .lookup sym => Sys2Proof.Machine.execLookup sym s
  | .encode sym => Sys2Proof.Machine.execEncode sym s
  | .decode => Sys2Proof.Machine.execDecode s

end Sys2Proof.Machine
end

