-- ==== Sys2Proof/Machine/Port.lean ====
section
/-! DEFINITION. The command port, the core's own step, the moves of the host and the register reads
(70_reset_and_hazards.md R200, 20_memory.md R69, 60_exceptions.md R175, R179, 10_state.md R23). -/

namespace Sys2Proof.Machine

/-- `Accept(cmd)` of a command word: its command's meaning, or `raise Fault(ILLEGAL_COMMAND)` (R200, R174). -/
def acceptWord (w : CmdWord) (s : State) : Host.Outcome State Fault Refusal :=
  match decodeCmd w with
  | .ok i    => exec i s
  | .error _ => .next (raiseFault .illegalCommand s)

/-- A call with an integer for the symbol: its command word, or `DOMAIN_VIOLATION` with no word formed (R175). -/
def acceptInt (command : Symbol → Instr) (n : Nat) (s : State) : Host.Outcome State Fault Refusal :=
  match intOperand command n with
  | some i => acceptWord (encodeCmd i) s
  | none   => .next (raiseFault .domainViolation s)

/-- The acceptance of a request. DESIGN CHOICE, log entry 7: an integer call, like a word, waits for the port. -/
def acceptRequest (r : HostRequest) (s : State) : Host.Outcome State Fault Refusal :=
  match r with
  | .word w      => acceptWord w s
  | .lookupInt n => acceptInt .lookup n s
  | .encodeInt n => acceptInt .encode n s

/-- The core's own step (00_scope.md R15): nothing while `FAULT ≠ 0` (R177), a micro-step while `BUSY = 1` (R151), the
acceptance of the oldest request when the port is ready (R200), and otherwise nothing: it is idle and keeps its state
(R188), and a request is held. -/
def coreStep (s : State) : Host.Outcome State Fault Refusal :=
  if s.fault ≠ .noFault then .next s
  else if s.busy then .next (decStep s)
  else if s.ready then
    match s.pending with
    | []        => .next s
    | r :: rest => acceptRequest r { s with pending := rest }
  else .next s

/-- A reset as a step of the machine. It takes precedence (R179): the request that the port would have accepted in that
step, the oldest at a ready port (R200), is discarded. What else the port holds stays held. DEDUCED, log entry 6. -/
def resetStep (s : State) : State :=
  resetCore { s with pending := if cmdReady s then s.pending.tail else s.pending }

/-- A reset in the step in which the host also presents a request, which reaches the port behind those held there. -/
def presentAtReset (r : HostRequest) (s : State) : State :=
  resetStep { s with pending := s.pending ++ [r] }

/-- One move of the host, already taken off its list. -/
def hostStep (m : HostMove) (s : State) : Host.Outcome State Fault Refusal :=
  match m with
  | .tick             => coreStep s
  | .present r        => coreStep { s with pending := s.pending ++ [r] }
  | .reset            => .next (resetStep s)
  | .presentAtReset r => .next (presentAtReset r s)
  | .setSource bits   =>
    if s.busy then .refused .sourceChangedDuringDecode else .next { s with src := bits }
  | .sourceFromSink   =>
    if s.busy then .refused .sourceChangedDuringDecode else .next { s with src := s.sink }
  | .setSink bits     =>
    if s.busy then .refused .sinkChangedDuringDecode else .next { s with sink := bits }

/-- A step with no move of the host left: the core's own step, or the stop of a core held by a fault, which has "no
step other than reset" (R177). -/
def lastStep (s : State) : Host.Outcome State Fault Refusal :=
  match s.fault with
  | .noFault         => coreStep s
  | .malformedTable  => .fault .malformedTable
  | .illegalCommand  => .fault .illegalCommand
  | .domainViolation => .fault .domainViolation

/-- A host read of a register by its 2-bit index: 0 `STATUS`, 1 `RES_SYM`, 2 `RES_CODE`, 3 `RES_BITS` (R23), each
zero-extended to the widest of them (R25). An observation, not a step. -/
def hostRead (index : BitVec 2) (s : State) : BitVec 32 :=
  if index = 0#2 then (statusWord s).setWidth 32
  else if index = 1#2 then s.resSym.setWidth 32
  else if index = 2#2 then s.resCode
  else s.resBits.setWidth 32

/-- The sink read back as bytes, by the open parameter `SINK_PACKING` (20_memory.md R53). -/
def sinkBytes (s : State) : List (BitVec 8) := Config.sinkPacking s.sink

/-- The state in which the very next step accepts the word `w`: the word oldest at the port, the port ready, and the
host making no move in that step. -/
def placeWord (w : CmdWord) (s : State) : State :=
  { s with ready := true, busy := false, fault := .noFault,
           pending := .word w :: s.pending, hostMoves := .tick :: s.hostMoves }

end Sys2Proof.Machine
end

