-- ==== Sys2Proof/Machine/Step.lean ====
section
/-! DEFINITION. One step of the machine (00_scope.md R15), and the placing of a command word for the next step. -/

namespace Sys2Proof.Machine

/-- One step: the host's next move with what the core does in it; the core alone once the host has no move left. -/
def step (s : State) : Host.Outcome State Fault Refusal :=
  match s.hostMoves with
  | []        => lastStep s
  | m :: rest => hostStep m { s with hostMoves := rest }

/-- `s` with the command word of bits `w` where the next step accepts it: the port carries one 16-bit word (R80).
`READY`, `BUSY` and `FAULT` are set to the port's ready condition (R200); log entry 10. -/
def State.withFetchWord (s : State) (nbits w : Nat) : State :=
  placeWord (BitVec.ofNat 16 (w % 2 ^ nbits)) s

end Sys2Proof.Machine
end

