-- ==== Sys2Proof/Machine/Assembler.lean ====
section
/-! DEFINITION. The assembler syntax, one command per line (30_encoding.md R88), on lines as lists of characters. -/

namespace Sys2Proof.Machine

/-- The line without its comment, which starts with `;` (R88). -/
def dropComment : List Char → List Char
  | []      => []
  | c :: cs => if c = ';' then [] else c :: dropComment cs

/-- The words of a line, separated by blanks; `word` holds the characters of the current word. -/
def wordsFrom (word : List Char) : List Char → List (List Char)
  | []      => if word = [] then [] else [word]
  | c :: cs =>
    if c = ' ' ∨ c = '\t' then (if word = [] then wordsFrom [] cs else word :: wordsFrom [] cs)
    else wordsFrom (word ++ [c]) cs

/-- The value of a digit character in a base up to 16. -/
def digitOf (base : Nat) (c : Char) : Option Nat :=
  let n := c.toNat
  let d := if 48 ≤ n ∧ n ≤ 57 then n - 48
           else if 97 ≤ n ∧ n ≤ 102 then n - 87
           else if 65 ≤ n ∧ n ≤ 70 then n - 55 else base
  if d < base then some d else none

/-- The number of a digit string read onto `acc`. -/
def numberFrom (base : Nat) (acc : Nat) : List Char → Option Nat
  | []      => some acc
  | c :: cs =>
    match digitOf base c with
    | some d => numberFrom base (acc * base + d) cs
    | none   => none

/-- An operand: a decimal number, or a hexadecimal number after `0x` (R88). -/
def parseOperand : List Char → Option Nat
  | []                  => none
  | ['0', 'x']          => none
  | '0' :: 'x' :: rest  => numberFrom 16 0 rest
  | word                => numberFrom 10 0 word

/-- A mnemonic (R88). -/
def parseMnemonic (word : List Char) : Option AsmMnemonic :=
  if word = ['L', 'O', 'O', 'K', 'U', 'P'] then some .lookup
  else if word = ['E', 'N', 'C', 'O', 'D', 'E'] then some .encode
  else if word = ['D', 'E', 'C', 'O', 'D', 'E'] then some .decode
  else none

/-- The words of a line as a mnemonic with its operand; `none` is a line with no command on it. R88 says of a line marked
`host:` only that it is not a command: DESIGN CHOICE, log entry 18, it is refused as an unknown mnemonic and not skipped. -/
def parseWords : List (List Char) → Except AsmError (Option AsmLine)
  | []     => .ok none
  | m :: operands =>
    match parseMnemonic m with
    | none   => .error .unknownMnemonic
    | some k =>
      match operands with
      | []     => .ok (some ⟨k, none⟩)
      | [x]    =>
        match parseOperand x with
        | some n => .ok (some ⟨k, some n⟩)
        | none   => .error .badOperand
      | _ :: _ :: _ => .error .extraText

/-- One line of assembler: its command word, nothing for a line with no command, or the reason it is refused (R88). -/
def assembleLine (line : List Char) : Except AsmError (Option CmdWord) :=
  match parseWords (wordsFrom [] (dropComment line)) with
  | .error e       => .error e
  | .ok none       => .ok none
  | .ok (some asm) =>
    match asm.toInstr with
    | .error e => .error e
    | .ok i    => .ok (some (encodeCmd i))

end Sys2Proof.Machine
end

