-- ==== Sys2Proof/Safety.lean ====
section
/-! DEFINITION. The terms claims use: the ends of a run, what is observed there and who moves in a step (R205, R200,
R190), and the invariant of the core (10_state.md R29, R31, R36, R37). -/

namespace Sys2Proof.Machine

/-- The host's move presents a command to the port. -/
def HostMove.presents : HostMove → Bool
  | .present _ | .presentAtReset _                                 => true
  | .tick | .reset | .setSource _ | .sourceFromSink | .setSink _ => false

/-- A run ends successfully here (R205): the port is ready and the host has no command left to present, whatever other
moves it has left (a last flush of the sink, a reset). -/
def Quiescent (s : State) : Bool :=
  cmdReady s && decide (s.pending = []) && s.hostMoves.all (fun m => !m.presents)

/-- The host leaves the step to the core: it has no move left, it ticks, or it presents a request (R200). In that step
the port holds the requests `p`, and the host's moves after it are `m`. That `p` can be several requests, and an integer
call among them, is the model's choice (log entries 4 and 7). -/
def CoreRuns (s : State) (p : List HostRequest) (m : List HostMove) : Prop :=
  (s.hostMoves = [] ∧ p = s.pending ∧ m = []) ∨
  (s.hostMoves = .tick :: m ∧ p = s.pending) ∨
  ∃ r, s.hostMoves = .present r :: m ∧ p = s.pending ++ [r]

/-- The host's move in this step is a reset (R190), with a request presented in the same step or without; the moves
after it are `m`. -/
def HostResets (s : State) (m : List HostMove) : Prop :=
  s.hostMoves = .reset :: m ∨ ∃ r, s.hostMoves = .presentAtReset r :: m

/-- The observation of a finished run: `SINK`, `SRC` and the four host registers (R205). -/
structure Observation where
  sink    : BitString
  src     : BitString
  status  : BitVec 32
  resSym  : BitVec 32
  resCode : BitVec 32
  resBits : BitVec 32
  deriving DecidableEq, Repr

/-- What a host observes of a state (R205, R23). -/
def observe (s : State) : Observation :=
  ⟨s.sink, s.src, hostRead 0#2 s, hostRead 1#2 s, hostRead 2#2 s, hostRead 3#2 s⟩

/-- The walk's path from the root, `bitstr(WALK_P, WALK_N)` (R30). -/
def walkPath (s : State) : BitString := bitstr s.walkP s.walkN.toNat

/-- R31: where `READY = 1` the walk registers name a node of the trie, and where `BUSY = 0` they are at the root. -/
structure WalkInv (s : State) : Prop where
  inRange : s.ready = true → s.walkP.toNat < 2 ^ s.walkN.toNat
  isNode  : s.ready = true → ∃ v, walkPath s <+: codeString (romRead s.rom v)
  atRoot  : s.busy = false → s.walkP = 0#32 ∧ s.walkN = 0#6

/-- R29, R171, R173: `READY` says that the ROM passed the check; a core not ready is held by `MALFORMED_TABLE`; a held
core is not busy. -/
structure ReadyInv (s : State) : Prop where
  ready    : s.ready = tableOk s.rom
  notReady : s.ready = false → s.fault = .malformedTable
  held     : s.fault ≠ .noFault → s.busy = false

/-- R36, R37, R61: the two result flags exclude each other and are clear during a walk, and the lengths are legal. -/
structure FlagInv (s : State) : Prop where
  exclusive : ¬(s.resValid = true ∧ s.eos = true)
  walking   : s.busy = true → s.resValid = false ∧ s.eos = false
  resBits   : s.resBits.toNat ≤ 32
  walkN     : s.walkN.toNat ≤ 32

/-- R25 to R27: a valid result is a symbol with its own code and length. -/
def ResultInv (s : State) : Prop :=
  s.resValid = true → romRead s.rom s.resSym = ⟨s.resCode, s.resBits⟩

/-- The invariant of the core in every state after a reset. -/
structure Inv (s : State) : Prop where
  walk   : WalkInv s
  ready  : ReadyInv s
  flags  : FlagInv s
  result : ResultInv s

end Sys2Proof.Machine
end

