-- ==== Sys2Proof/Certificates/Slice0/Obligations.lean ====
section
/-! DEFINITION. The statements for the provers, from the numbered rules of spec/. -/

open Sys2Proof Sys2Proof.Machine

/-! ### Encoding -/

/-- 30_encoding.md R85, R88, R89: the decoder reads from a command's word that command, at every symbol. -/
def Obligations.DecodeEncode : Prop :=
  ∀ i : Instr, decodeCmd (encodeCmd i) = .ok i

/-- R85, R86: each legal word is the word of the command it decodes to, so no word has two meanings or two spellings. -/
def Obligations.LegalWordIsItsEncoding : Prop :=
  ∀ (w : CmdWord) (i : Instr), decodeCmd w = .ok i → encodeCmd i = w

/-- R83, R84, R86: which of the 65536 words are legal, by their numbers, and why another is not. -/
def Obligations.LegalWordRanges : Prop :=
  ∀ w : CmdWord,
    ((∃ i, decodeCmd w = .ok i) ↔
      (0x1000 ≤ w.toNat ∧ w.toNat ≤ 0x10FF) ∨ (0x2000 ≤ w.toNat ∧ w.toNat ≤ 0x20FF) ∨ w.toNat = 0x3000) ∧
    (decodeCmd w = .error .reservedField ↔ w.toNat / 256 % 16 ≠ 0) ∧
    (decodeCmd w = .error .decodeOperand ↔ 0x3001 ≤ w.toNat ∧ w.toNat ≤ 0x30FF)

/-- R81, R89 and 95_test_vectors.md 2.1: words written out from the encoding. -/
def Obligations.WrittenWordsDecode : Prop :=
  decodeCmd 0b0001000000000000#16 = .ok (.lookup 0) ∧ decodeCmd 0b0001000011111111#16 = .ok (.lookup 255) ∧
  decodeCmd 0b0010000000000001#16 = .ok (.encode 1) ∧ decodeCmd 0b0011000000000000#16 = .ok .decode ∧
  decodeCmd 0x0000#16 = .error .reservedOpcode ∧ decodeCmd 0x4000#16 = .error .reservedOpcode ∧
  decodeCmd 0x2F01#16 = .error .reservedField ∧ decodeCmd 0x3100#16 = .error .reservedField ∧
  decodeCmd 0x3001#16 = .error .decodeOperand

/-- R88, R175: a line with an operand is a command exactly in the domain 0..255, and never a truncation; a missing
operand and an operand of DECODE are refused. -/
def Obligations.AssemblerChecks : Prop :=
  (∀ (n : Nat) (v : Symbol), (AsmLine.mk .lookup (some n)).toInstr = .ok (.lookup v) ↔ n = v.toNat) ∧
  (∀ (n : Nat) (v : Symbol), (AsmLine.mk .encode (some n)).toInstr = .ok (.encode v) ↔ n = v.toNat) ∧
  (∀ n : Nat, 256 ≤ n → (AsmLine.mk .lookup (some n)).toInstr = .error .operandOutOfRange ∧
    (AsmLine.mk .encode (some n)).toInstr = .error .operandOutOfRange) ∧
  (AsmLine.mk .lookup none).toInstr = .error .missingOperand ∧
  (AsmLine.mk .encode none).toInstr = .error .missingOperand ∧
  (AsmLine.mk .decode none).toInstr = .ok .decode ∧
  (∀ n : Nat, (AsmLine.mk .decode (some n)).toInstr = .error .unexpectedOperand)

/-! ### A step runs the decoded command -/

/-- 70_reset_and_hazards.md R200: where the host leaves the step to the core, a word oldest at a ready port, that decodes
to a command, is taken off the port and the step is that command's meaning. `CoreRuns` counts a request presented in that
very step as the last at the port; that the port holds several requests, integer calls among them, is the model's choice (log
entries 4 and 7). -/
def Obligations.StepRunsDecoded : Prop :=
  ∀ (s : State) (w : CmdWord) (i : Instr) (rest : List HostRequest) (m : List HostMove),
    cmdReady s = true → CoreRuns s (.word w :: rest) m → decodeCmd w = .ok i →
    step s = exec i { s with pending := rest, hostMoves := m }

/-- R80, R200: a word placed for the next step is run by it, on the state with the port ready. Rests on the model's
`withFetchWord` (log entry 10). -/
def Obligations.PlacedWordRuns : Prop :=
  ∀ (s : State) (w : Nat) (i : Instr), decodeTableWord 16 w = some i →
    step (s.withFetchWord 16 w) = exec i { s with ready := true, busy := false, fault := .noFault }

/-! ### The three commands -/

/-- 40_code_table.md R111: LOOKUP. Its word, its effect in the one step that accepts it (everything not named stays),
that it always completes, the illegal words of its `OP`, that repeating it gives the same result, and the example. That the
port holds several requests, and that an integer call behind the word waits and raises no fault in its step, is the model's
choice (log entries 4 and 7). -/
def Obligations.LookupRule : Prop :=
  (∀ sym : Symbol, decodeCmd (0x1000#16 ||| sym.setWidth 16) = .ok (.lookup sym)) ∧
  (∀ (sym : Symbol) (s : State), exec (.lookup sym) s = .next
    { s with resSym := sym, resCode := (romRead s.rom sym).code, resBits := (romRead s.rom sym).bits,
             resValid := true, eos := false }) ∧
  (∀ (sym : Symbol) (s : State) (rest : List HostRequest) (m : List HostMove), cmdReady s = true →
    CoreRuns s (.word (0x1000#16 ||| sym.setWidth 16) :: rest) m →
    step s = .next { s with
      resSym := sym, resCode := (romRead s.rom sym).code, resBits := (romRead s.rom sym).bits,
      resValid := true, eos := false, pending := rest, hostMoves := m }) ∧
  (∀ w : CmdWord, opField w = 0x1#4 → rsvField w ≠ 0x0#4 → decodeCmd w = .error .reservedField) ∧
  (∀ (sym : Symbol) (s t : State), exec (.lookup sym) s = .next t → exec (.lookup sym) t = .next t) ∧
  (∀ s t : State, AdmissibleTable s.rom → cmdReady s = true → exec (.lookup 255) s = .next t →
    t.resSym = 0xFF#8 ∧ t.resCode = 0x0623FE66#32 ∧ t.resBits = 27#6 ∧ statusWord t = 0x0006#16)

/-- 42_encoder.md R140: ENCODE. Its word, its effect in the one step that accepts it, that it always completes, the
illegal words of its `OP`, the length and range of its append, and the example. The model's choice: the port holds several
requests, and an integer call behind the word waits and raises no fault in its step (log entries 4 and 7); the append of a
table that fails the check, which no run reaches (log entry 15). -/
def Obligations.EncodeRule : Prop :=
  (∀ sym : Symbol, decodeCmd (0x2000#16 ||| sym.setWidth 16) = .ok (.encode sym)) ∧
  (∀ (sym : Symbol) (s : State), exec (.encode sym) s = .next
    { s with sink := s.sink ++ bitstr (romRead s.rom sym).code (romRead s.rom sym).bits.toNat,
             resSym := sym, resCode := (romRead s.rom sym).code, resBits := (romRead s.rom sym).bits,
             resValid := true, eos := false }) ∧
  (∀ (sym : Symbol) (s : State) (rest : List HostRequest) (m : List HostMove), cmdReady s = true →
    CoreRuns s (.word (0x2000#16 ||| sym.setWidth 16) :: rest) m →
    step s = .next { s with
      sink := s.sink ++ bitstr (romRead s.rom sym).code (romRead s.rom sym).bits.toNat,
      resSym := sym, resCode := (romRead s.rom sym).code, resBits := (romRead s.rom sym).bits,
      resValid := true, eos := false, pending := rest, hostMoves := m }) ∧
  (∀ (s : State) (w : CmdWord) (rest : List HostRequest) (m : List HostMove), cmdReady s = true →
    CoreRuns s (.word w :: rest) m → opField w = 0x2#4 → rsvField w ≠ 0x0#4 →
    step s = .next { s with fault := .illegalCommand, pending := rest, hostMoves := m }) ∧
  (∀ (sym : Symbol) (s : State), tableOk s.rom = true →
    1 ≤ (romRead s.rom sym).bits.toNat ∧ (romRead s.rom sym).bits.toNat ≤ 32 ∧
    (romRead s.rom sym).code.toNat < 2 ^ (romRead s.rom sym).bits.toNat) ∧
  (∀ (sym : Symbol) (s : State), AdmissibleTable s.rom →
    2 ≤ (romRead s.rom sym).bits.toNat ∧ (romRead s.rom sym).bits.toNat ≤ 27 ∧
    (romRead s.rom 0#8).bits.toNat = 2 ∧ (romRead s.rom 255#8).bits.toNat = 27) ∧
  (∀ s t : State, AdmissibleTable s.rom → cmdReady s = true → s.sink = [] → exec (.encode 1) s = .next t →
    t.sink = [true, false, false] ∧ t.resSym = 1#8 ∧ t.resCode = 0x4#32 ∧ t.resBits = 3#6 ∧
    statusWord t = 0x0006#16)

/-- 43_decoder.md R150: the acceptance of DECODE completes in every state: flags cleared, the walk at the root, busy. That
the port holds several requests, and that an integer call behind the word waits and raises no fault in its step, is the
model's choice (log entries 4 and 7). -/
def Obligations.DecodeAccepts : Prop :=
  decodeCmd 0x3000#16 = .ok .decode ∧
  (∀ s : State, exec .decode s = .next
    { s with resValid := false, eos := false, walkP := 0#32, walkN := 0#6, busy := true }) ∧
  (∀ (s : State) (rest : List HostRequest) (m : List HostMove), cmdReady s = true →
    CoreRuns s (.word 0x3000#16 :: rest) m →
    step s = .next { s with
      resValid := false, eos := false, walkP := 0#32, walkN := 0#6, busy := true, pending := rest, hostMoves := m })

/-- R111, R140, R150: what each command leaves alone in the step that accepts it. LOOKUP and ENCODE write the three
result registers and the two result flags, ENCODE the bits after the old end of the sink, and DECODE the two result flags,
`BUSY` and the walk; nothing else changes. The core has no byte memory: the sink is its one store (20_memory.md R50).
The append of a table that fails the check, which no run reaches, is the model's choice (log entry 15). -/
def Obligations.CommandFrame : Prop :=
  (∀ (sym : Symbol) (s t : State), exec (.lookup sym) s = .next t →
    t.rom = s.rom ∧ t.ready = s.ready ∧ t.busy = s.busy ∧ t.fault = s.fault ∧ t.walkP = s.walkP ∧
    t.walkN = s.walkN ∧ t.sink = s.sink ∧ t.src = s.src ∧ t.pending = s.pending ∧ t.hostMoves = s.hostMoves) ∧
  (∀ (sym : Symbol) (s t : State), exec (.encode sym) s = .next t →
    t.rom = s.rom ∧ t.ready = s.ready ∧ t.busy = s.busy ∧ t.fault = s.fault ∧ t.walkP = s.walkP ∧
    t.walkN = s.walkN ∧ t.sink.take s.sink.length = s.sink ∧
    t.sink.length = s.sink.length + (romRead s.rom sym).bits.toNat ∧ t.src = s.src ∧ t.pending = s.pending ∧
    t.hostMoves = s.hostMoves) ∧
  (∀ s t : State, exec .decode s = .next t →
    t.rom = s.rom ∧ t.ready = s.ready ∧ t.fault = s.fault ∧ t.resSym = s.resSym ∧ t.resCode = s.resCode ∧
    t.resBits = s.resBits ∧ t.sink = s.sink ∧ t.src = s.src ∧ t.pending = s.pending ∧ t.hostMoves = s.hostMoves)

/-! ### The decoder's walk -/

/-- R151: the four outcomes of a micro-step, in their order: a leaf, the depth guard, EndOfStream, one bit read. A word
presented in that step is held (R200, R61). The model's choice, and no rule's: an integer call is held like a word (log
entry 7), a port holds several requests, the presented one last (log entry 4), where the depth guard fires the walk
registers stay as they are (log entry 14), and a walk deeper than 32, which no run reaches, reads on (log entry 15). -/
def Obligations.MicroStep : Prop :=
  ∀ (s : State) (p : List HostRequest) (m : List HostMove), s.fault = .noFault → s.busy = true → CoreRuns s p m →
    (∀ v, leafTest s.rom s.walkP s.walkN = some v → step s = .next
      { s with resSym := v, resCode := s.walkP, resBits := s.walkN, resValid := true,
               walkP := 0#32, walkN := 0#6, busy := false, pending := p, hostMoves := m }) ∧
    (leafTest s.rom s.walkP s.walkN = none → s.walkN = 32#6 → step s = .next
      { s with fault := .malformedTable, busy := false, pending := p, hostMoves := m }) ∧
    (leafTest s.rom s.walkP s.walkN = none → s.walkN ≠ 32#6 → s.src = [] → step s = .next
      { s with eos := true, resBits := s.walkN, walkP := 0#32, walkN := 0#6, busy := false,
               pending := p, hostMoves := m }) ∧
    (∀ b rest, leafTest s.rom s.walkP s.walkN = none → s.walkN ≠ 32#6 → s.src = b :: rest → step s = .next
      { s with walkP := s.walkP <<< 1 ||| (BitVec.ofBool b).setWidth 32, walkN := s.walkN + 1#6, src := rest,
               pending := p, hostMoves := m })

/-- R151, R25, R26: what a micro-step leaves alone, whichever its outcome; the result symbol and code change only at a
leaf, and at most the first bit of the source is taken. That an integer call presented in that step is held like a word, and
that the port holds several requests, is the model's choice (log entries 7 and 4). -/
def Obligations.MicroStepFrame : Prop :=
  ∀ (s t : State) (p : List HostRequest) (m : List HostMove), s.fault = .noFault → s.busy = true →
    CoreRuns s p m → step s = .next t →
    t.rom = s.rom ∧ t.ready = s.ready ∧ t.sink = s.sink ∧ t.pending = p ∧ t.hostMoves = m ∧
    (t.src = s.src ∨ ∃ b, s.src = b :: t.src) ∧
    (leafTest s.rom s.walkP s.walkN = none →
      t.resSym = s.resSym ∧ t.resCode = s.resCode ∧ t.resValid = s.resValid)

/-- R153: on a source that starts with a symbol's code, DECODE takes one acceptance, as many bit-reading micro-steps as
the code has bits and one leaf micro-step, and leaves exactly the rest of the source; the root is never a leaf. The
equation says what every field is, so also what did not change. -/
def Obligations.DecodeSucceeds : Prop :=
  ∀ (s : State) (v : Symbol) (t : BitString), tableOk s.rom = true → cmdReady s = true →
    s.pending = [.word 0x3000#16] → s.hostMoves = [] → s.src = codeString (romRead s.rom v) ++ t →
    Host.Core.run Sys2Proof.core (1 + (romRead s.rom v).bits.toNat + 1) s = .next
      { s with resSym := v, resCode := (romRead s.rom v).code, resBits := (romRead s.rom v).bits,
               resValid := true, eos := false, walkP := 0#32, walkN := 0#6, src := t, pending := [] } ∧
    1 ≤ (romRead s.rom v).bits.toNat ∧ leafTest s.rom 0#32 0#6 = none

/-- R152: after `k` bit-reading micro-steps the walk registers name the string of the first `k` bits read, as long as no
code is a proper prefix of it; and the walk is at a leaf as soon as that string is a symbol's code. -/
def Obligations.WalkIsBitsRead : Prop :=
  ∀ (s : State) (x y : BitString), tableOk s.rom = true → cmdReady s = true →
    s.pending = [.word 0x3000#16] → s.hostMoves = [] → s.src = x ++ y →
    (∀ v, codeString (romRead s.rom v) <+: x → codeString (romRead s.rom v) = x) →
    ∃ u, Host.Core.run Sys2Proof.core (1 + x.length) s = .next u ∧ walkPath u = x ∧
      u.walkN.toNat = x.length ∧ u.busy = true ∧ u.src = y ∧
      ∀ v, leafTest s.rom u.walkP u.walkN = some v ↔ codeString (romRead s.rom v) = x

/-- R154: on a source that runs out before a leaf, after `k` bits, DECODE ends with `EOS`, no symbol, the count of bits
and the bits consumed; `FAULT` is as before. -/
def Obligations.DecodeEndOfStream : Prop :=
  ∀ s : State, tableOk s.rom = true → cmdReady s = true →
    s.pending = [.word 0x3000#16] → s.hostMoves = [] →
    (∀ v, ¬ codeString (romRead s.rom v) <+: s.src) →
    Host.Core.run Sys2Proof.core (1 + s.src.length + 1) s = .next
      { s with resBits := BitVec.ofNat 6 s.src.length, resValid := false, eos := true, walkP := 0#32, walkN := 0#6,
               src := [], pending := [] } ∧
    s.src.length ≤ 31

/-- 42_encoder.md R142: encoder and decoder agree. DECODE on `bitstr(code_v, bits_v) ++ t` ends at symbol `v` with `t` left;
and through the sink: encode, `SRC <- SINK` by the host (20_memory.md R70), decode. Each run takes as many steps as its
commands and moves, and `bits_v` bits read: that `SRC <- SINK` by the host is a step of its own is the model's choice (log
entry 5). -/
def Obligations.RoundTrip : Prop :=
  (∀ (s : State) (v : Symbol) (t : BitString), tableOk s.rom = true → cmdReady s = true →
    s.pending = [.word 0x3000#16] → s.hostMoves = [] →
    s.src = bitstr (romRead s.rom v).code (romRead s.rom v).bits.toNat ++ t →
    ∃ u, Host.Core.run Sys2Proof.core (1 + (romRead s.rom v).bits.toNat + 1) s = .next u ∧ u.busy = false ∧
      u.resValid = true ∧ u.resSym = v ∧ u.resBits = (romRead s.rom v).bits ∧ u.src = t) ∧
  (∀ (s : State) (v : Symbol), tableOk s.rom = true → cmdReady s = true → s.pending = [] → s.sink = [] →
    s.hostMoves = [.present (.word (encodeCmd (.encode v))), .sourceFromSink, .present (.word (encodeCmd .decode))] →
    Host.Core.run Sys2Proof.core (3 + (romRead s.rom v).bits.toNat + 1) s = .next
      { s with resSym := v, resCode := (romRead s.rom v).code, resBits := (romRead s.rom v).bits,
               resValid := true, eos := false, walkP := 0#32, walkN := 0#6,
               sink := bitstr (romRead s.rom v).code (romRead s.rom v).bits.toNat, src := [], hostMoves := [] })

/-- R156: every DECODE ends after at most `max_v bits_v + 1` micro-steps, with a leaf or with EndOfStream: 28 where the
longest code is the reference table's 27. The host may tick and present requests meanwhile: a word
is held (R200); that an integer call is held too, and raises no fault in the walk, and that the port holds several requests,
is the model's choice (log entries 7 and 4). -/
def Obligations.DecodeTerminates : Prop :=
  (∀ s : State, Inv s → s.busy = true → (∀ m ∈ s.hostMoves, m = .tick ∨ ∃ r, m = .present r) →
    ∃ k u, k ≤ longestCode s.rom + 1 ∧ Host.Core.run Sys2Proof.core k s = .next u ∧ u.busy = false ∧
      u.fault = .noFault ∧ (u.resValid = true ∨ u.eos = true)) ∧
  (∀ T : CodeTable, AdmissibleTable T → longestCode T + 1 = 28)

/-- 20_memory.md R52, R141: commands `ENCODE v1; ...; ENCODE vk` append their codes in order with nothing between. That
the port holds all `k` words at once and accepts each in turn is the model's choice (log entry 4), and so is the append of a
table that fails the check (log entry 15). -/
def Obligations.EncodeSequence : Prop :=
  ∀ (vs : List Symbol) (s : State), cmdReady s = true → s.hostMoves = [] →
    s.pending = vs.map (fun v => .word (encodeCmd (.encode v))) →
    ∃ u, Host.Core.run Sys2Proof.core vs.length s = .next u ∧ u.pending = [] ∧
      u.sink = s.sink ++ vs.flatMap (fun v => codeString (romRead s.rom v))

/-- R158: successive DECODE commands read consecutive codes, each from where the last one ended. That the port holds all
the words at once and accepts each in turn is the model's choice (log entry 4). -/
def Obligations.DecodeSequence : Prop :=
  ∀ (vs : List Symbol) (v : Symbol) (t : BitString) (s : State), tableOk s.rom = true → cmdReady s = true →
    s.hostMoves = [] → s.pending = (vs ++ [v]).map (fun _ => .word 0x3000#16) →
    s.src = (vs ++ [v]).flatMap (fun u => codeString (romRead s.rom u)) ++ t →
    ∃ k u, Host.Core.run Sys2Proof.core k s = .next u ∧ u.busy = false ∧ u.pending = [] ∧ u.resValid = true ∧
      u.resSym = v ∧ u.src = t

/-- R157: the rows of the corner-case table that the pinned entries fix, each from `SRC` to its end. -/
def Obligations.DecodeCorners : Prop :=
  ∀ s : State, AdmissibleTable s.rom → cmdReady s = true → s.pending = [.word 0x3000#16] → s.hostMoves = [] →
    let ends (eos : Bool) (bits : Len) (rest : BitString) : Prop :=
      ∃ k u, Host.Core.run Sys2Proof.core k s = .next u ∧ u.busy = false ∧ u.pending = [] ∧ u.eos = eos ∧
        u.resValid = !eos ∧ u.resBits = bits ∧ u.src = rest ∧ (eos = true → u.resSym = s.resSym)
    let gives (v : Symbol) (code : Code) (bits : Len) (rest : BitString) : Prop :=
      ∃ k u, Host.Core.run Sys2Proof.core k s = .next u ∧ u.busy = false ∧ u.pending = [] ∧ u.eos = false ∧
        u.resValid = true ∧ u.resSym = v ∧ u.resCode = code ∧ u.resBits = bits ∧ u.src = rest
    (s.src = [] → ends true 0 []) ∧ (s.src = [false] → ends true 1 []) ∧ (s.src = [true] → ends true 1 []) ∧
    (s.src = [true, false] → ends true 2 []) ∧ (s.src = [false, false] → gives 0 0x0 2 []) ∧
    (s.src = [false, false, true] → gives 0 0x0 2 [true]) ∧ (s.src = [true, false, false] → gives 1 0x4 3 []) ∧
    (s.src = bitstr 0x311FF33#32 26 → ends true 26 []) ∧ (s.src = bitstr 0x623FE66#32 27 → gives 255 0x623FE66 27 [])

/-! ### Bit strings and the two ports -/

/-- 00_scope.md R13, 20_memory.md R51: `bitstr(c, n)` has `n` bits, the bit at position `n - 1` first and the bit at
position 0 last. That bits above 31 are zeros, where `n` exceeds 32, is the model's choice (log entry 15). -/
def Obligations.BitOrder : Prop :=
  ∀ (c : Code) (n : Nat), (bitstr c n).length = n ∧
    ∀ i, i < n → (bitstr c n)[i]? = some (c.getLsbD (n - 1 - i))

/-- 20_memory.md R55, R57: an append puts the `n` bits after the sink's and changes nothing else; a read takes the first
bit of the source and changes nothing else, or answers `EOS`, with the state as it was, exactly when no bit is left.
An append of more than 32 bits, or of data that does not fit, is the model's choice (log entry 15). -/
def Obligations.PortTransactions : Prop :=
  (∀ (n : Len) (d : Code) (s : State), (sinkAppend n d s).sink = s.sink ++ bitstr d n.toNat ∧
    { sinkAppend n d s with sink := s.sink } = s) ∧
  (∀ s : State, (sourceRead s = none ↔ s.src = []) ∧
    ∀ b t, sourceRead s = some (b, t) ↔ (s.src = b :: t.src ∧ { t with src := s.src } = s))

/-! ### Faults -/

/-- 60_exceptions.md R171: raising a fault keeps the first one, ends the current command, and has no further effect. -/
def Obligations.RaiseFaultRule : Prop :=
  ∀ (f : FaultCode) (s : State),
    (s.fault = .noFault → (raiseFault f s).fault = f) ∧
    (s.fault ≠ .noFault → (raiseFault f s).fault = s.fault) ∧
    (raiseFault f s).busy = false ∧ { raiseFault f s with fault := s.fault, busy := s.busy } = s

/-- R174: an illegal word at a ready port raises `ILLEGAL_COMMAND` and has no other effect: the state differs in nothing
but `FAULT`, the word taken off the port and the host's move made. That the port holds several requests, and that an integer
call behind the word waits, is the model's choice (log entries 4 and 7). -/
def Obligations.IllegalCommandRule : Prop :=
  ∀ (s : State) (w : CmdWord) (e : DecodeError) (rest : List HostRequest) (m : List HostMove), cmdReady s = true →
    decodeCmd w = .error e → CoreRuns s (.word w :: rest) m →
    step s = .next { s with fault := .illegalCommand, pending := rest, hostMoves := m }

/-- R175: an integer of 256 or more at a host interface raises `DOMAIN_VIOLATION` with no command formed; a smaller one is
the command; no command word ever raises this code; and an assembler refuses such an operand. That the call waits at the
port, and is taken there when it is the oldest request, is the model's choice (log entries 7 and 4): the statement is about
a ready port. -/
def Obligations.DomainViolationRule : Prop :=
  (∀ (s : State) (n : Nat) (rest : List HostRequest) (m : List HostMove), cmdReady s = true → 256 ≤ n →
    CoreRuns s (.lookupInt n :: rest) m ∨ CoreRuns s (.encodeInt n :: rest) m →
    step s = .next { s with fault := .domainViolation, pending := rest, hostMoves := m }) ∧
  (∀ (s : State) (v : Symbol) (rest : List HostRequest) (m : List HostMove), cmdReady s = true →
    (CoreRuns s (.lookupInt v.toNat :: rest) m → step s = exec (.lookup v) { s with pending := rest, hostMoves := m }) ∧
    (CoreRuns s (.encodeInt v.toNat :: rest) m →
      step s = exec (.encode v) { s with pending := rest, hostMoves := m })) ∧
  (∀ (w : CmdWord) (s t : State), acceptWord w s = .next t → t.fault = .domainViolation →
    s.fault = .domainViolation) ∧
  (∀ n : Nat, 256 ≤ n → (AsmLine.mk .lookup (some n)).WellFormed = false ∧
    (AsmLine.mk .encode (some n)).WellFormed = false)

/-- R177, R28: while `FAULT ≠ 0` a step is a reset, which the host takes (R190), or leaves every register of the core as it
is: nothing is accepted, no micro-step is taken, and the code stays; such a state is never the successful end of a run. That the
port holds several requests, and an integer call like a word, is the model's choice (log entries 4 and 7). -/
def Obligations.FaultSticky : Prop :=
  ∀ s : State, s.fault ≠ .noFault →
    Quiescent s = false ∧ cmdReady s = false ∧
    ∀ t, step s = .next t →
      (∃ p m, HostResets s m ∧ t = resetCore { s with pending := p, hostMoves := m }) ∨
      ((∃ p, t.pending = s.pending ++ p) ∧
        { t with sink := s.sink, src := s.src, pending := s.pending, hostMoves := s.hostMoves } = s)

/-- With no move of the host left, a core held by a fault stops under that fault's name. R177 says that such a core has no
step other than reset; that `step` then answers a fault is the model's choice (log entry 12). -/
def Obligations.HeldCoreStops : Prop :=
  ∀ s : State, s.hostMoves = [] →
    (s.fault = .malformedTable → step s = .fault .malformedTable) ∧
    (s.fault = .illegalCommand → step s = .fault .illegalCommand) ∧
    (s.fault = .domainViolation → step s = .fault .domainViolation)

/-! ### Reset -/

/-- 10_state.md R40: the value of every piece of the core's state after a reset, for a table that passes the check and for
one that fails it. -/
def Obligations.ResetValues : Prop :=
  ∀ s : State,
    (resetCore s).rom = s.rom ∧ (resetCore s).busy = false ∧ (resetCore s).resValid = false ∧
    (resetCore s).eos = false ∧ (resetCore s).resSym = 0#8 ∧ (resetCore s).resCode = 0#32 ∧
    (resetCore s).resBits = 0#6 ∧ (resetCore s).walkP = 0#32 ∧ (resetCore s).walkN = 0#6 ∧
    (resetCore s).sink = s.sink ∧ (resetCore s).src = s.src ∧
    (tableOk s.rom = true → (resetCore s).ready = true ∧ (resetCore s).fault = .noFault ∧
      statusWord (resetCore s) = 0x0002#16 ∧
      ∃ trie, buildTrie s.rom = some trie ∧ trieOf (resetCore s) = some trie) ∧
    (tableOk s.rom = false → (resetCore s).ready = false ∧ (resetCore s).fault = .malformedTable ∧
      statusWord (resetCore s) = 0x0010#16 ∧ trieOf (resetCore s) = none)

/-- R190, R191: the state the model starts from is one a reset leaves, of the open table. That `SINK`, `SRC` and the port
start empty is the model's choice (log entries 2, 4, 5). -/
def Obligations.ResetStateIsReset : Prop :=
  resetCore State.reset = State.reset ∧ State.reset.rom = Config.codeTable ∧ State.reset.sink = [] ∧
  State.reset.src = [] ∧ State.reset.pending = [] ∧
  statusWord State.reset = (if tableOk Config.codeTable then 0x0002#16 else 0x0010#16)

/-- 41_trie.md R124: the reset-time check passes exactly the tables that satisfy R102, R103, R104 and R105 in their
bit-string forms; the others leave `MALFORMED_TABLE` and `READY = 0`. -/
def Obligations.ResetChecksTable : Prop :=
  ∀ s : State,
    ((resetCore s).ready = true ↔
      LengthsLegal s.rom ∧ CodesInRange s.rom ∧ CodesPrefixFree s.rom ∧ CodesComplete s.rom) ∧
    ((resetCore s).ready = false ↔ (resetCore s).fault = .malformedTable) ∧
    ((resetCore s).ready = true ↔ (resetCore s).fault = .noFault)

/-- R192: a reset leaves `SINK` and `SRC` as they were; in the middle of a walk it discards the walk and its result, and
the bits already read stay consumed. -/
def Obligations.ResetKeepsExternal : Prop :=
  ∀ (s : State) (m : List HostMove), s.hostMoves = .reset :: m →
    ∃ t, step s = .next t ∧ t.sink = s.sink ∧ t.src = s.src ∧ t.busy = false ∧ t.walkP = 0#32 ∧ t.walkN = 0#6 ∧
      t.resValid = false ∧ t.eos = false

/-- R179, R190: a reset takes precedence over whatever the core would do, in any state: a micro-step is not taken, and the
request that a ready port would have accepted in that step, the oldest, is discarded. That the others, and all of them at a
port that is not ready, stay held is the model's choice (log entries 4 and 6, from R200). -/
def Obligations.ResetPrecedence : Prop :=
  ∀ (s : State) (m : List HostMove), s.hostMoves = .reset :: m →
    (cmdReady s = false → step s = .next (resetCore { s with hostMoves := m })) ∧
    (s.pending = [] → step s = .next (resetCore { s with hostMoves := m })) ∧
    (∀ r rest, cmdReady s = true → s.pending = r :: rest →
      step s = .next (resetCore { s with pending := rest, hostMoves := m }))

/-- The model's choice for a request presented in the step of a reset (log entries 4 and 6, from R179 with R200): the step
is the reset; the port holds the request behind those it held, but for the one it would have accepted in that step. -/
def Obligations.RequestInResetStep : Prop :=
  ∀ (s : State) (r : HostRequest) (m : List HostMove), s.hostMoves = .presentAtReset r :: m →
    (cmdReady s = false → step s = .next (resetCore { s with pending := s.pending ++ [r], hostMoves := m })) ∧
    (cmdReady s = true → s.pending = [] → step s = .next (resetCore { s with hostMoves := m })) ∧
    (∀ r₀ rest, cmdReady s = true → s.pending = r₀ :: rest →
      step s = .next (resetCore { s with pending := rest ++ [r], hostMoves := m }))

/-! ### The port, the host's moves and the registers -/

/-- R200: while the port is not ready a request is held: the step is what the core does without it (a micro-step where it
is busy and no fault holds it, else nothing), with the request put behind those held. That an integer call waits like a word
is the model's choice (log entry 7), and so is a port that holds several requests (log entry 4). -/
def Obligations.RequestHeld : Prop :=
  ∀ (s : State) (r : HostRequest) (m : List HostMove), cmdReady s = false → s.hostMoves = .present r :: m →
    step s = .next (if s.fault = .noFault ∧ s.busy = true
      then { decStep { s with hostMoves := m } with pending := s.pending ++ [r] }
      else { s with pending := s.pending ++ [r], hostMoves := m })

/-- 20_memory.md R69, R70, 70_reset_and_hazards.md R202: between commands the host fills `SRC` and flushes `SINK`, and no
register changes; during a DECODE it has no such move. The model's choice: such a move is a step of its own in which the core
does nothing (log entry 5), and during a DECODE the model stops by name, for `SINK` too (log entry 13). -/
def Obligations.HostStringMoves : Prop :=
  ∀ (s : State) (x : BitString) (m : List HostMove),
    (s.busy = false →
      (s.hostMoves = .setSource x :: m → step s = .next { s with src := x, hostMoves := m }) ∧
      (s.hostMoves = .sourceFromSink :: m → step s = .next { s with src := s.sink, hostMoves := m }) ∧
      (s.hostMoves = .setSink x :: m → step s = .next { s with sink := x, hostMoves := m })) ∧
    (s.busy = true →
      (s.hostMoves = .setSource x :: m → step s = .refused .sourceChangedDuringDecode) ∧
      (s.hostMoves = .sourceFromSink :: m → step s = .refused .sourceChangedDuringDecode) ∧
      (s.hostMoves = .setSink x :: m → step s = .refused .sinkChangedDuringDecode))

/-- 60_exceptions.md R188, 70_reset_and_hazards.md R205: a core with no command to run keeps all its state: the core's own
step does nothing, alone and while the host ticks, and the run's end stays one. -/
def Obligations.QuiescentStays : Prop :=
  ∀ s : State, Quiescent s = true →
    coreStep s = .next s ∧
    (s.hostMoves = [] → step s = .next s) ∧
    (∀ m, s.hostMoves = .tick :: m →
      step s = .next { s with hostMoves := m } ∧ Quiescent { s with hostMoves := m } = true)

/-- 10_state.md R24: the place of every field in `STATUS`, and its reserved bits. -/
def Obligations.StatusLayout : Prop :=
  ∀ s : State,
    (statusWord s).getLsbD 0 = s.busy ∧ (statusWord s).getLsbD 1 = s.ready ∧
    (statusWord s).getLsbD 2 = s.resValid ∧ (statusWord s).getLsbD 3 = s.eos ∧
    (statusWord s).extractLsb' 4 4 = faultBits s.fault ∧ (statusWord s).extractLsb' 8 8 = 0#8 ∧
    (faultBits s.fault).toNat ≤ 3 ∧
    statusWord s = ((faultBits s.fault).setWidth 16 <<< 4 ||| (BitVec.ofBool s.eos).setWidth 16 <<< 3 |||
      (BitVec.ofBool s.resValid).setWidth 16 <<< 2 ||| (BitVec.ofBool s.ready).setWidth 16 <<< 1 |||
      (BitVec.ofBool s.busy).setWidth 16)

/-- R23, R25: the four registers by their index, each zero-extended: what is read is the register's number. -/
def Obligations.HostReads : Prop :=
  ∀ s : State,
    (hostRead 0#2 s).toNat = (statusWord s).toNat ∧ (hostRead 1#2 s).toNat = s.resSym.toNat ∧
    (hostRead 2#2 s).toNat = s.resCode.toNat ∧ (hostRead 3#2 s).toNat = s.resBits.toNat

/-- R33, R62, R65: no step writes the ROM, and so none changes the trie of a core that stays ready. -/
def Obligations.RomNeverWritten : Prop :=
  ∀ s t : State, step s = .next t →
    t.rom = s.rom ∧ (t.ready = s.ready → trieOf t = trieOf s)

/-- R35: the core only appends to `SINK` and only removes the first bit of `SRC`; a reset changes neither. -/
def Obligations.ExternalStringsRule : Prop :=
  (∀ s t : State, coreStep s = .next t →
    s.sink <+: t.sink ∧ (t.src = s.src ∨ ∃ b, s.src = b :: t.src)) ∧
  (∀ s : State, (resetCore s).sink = s.sink ∧ (resetCore s).src = s.src)

/-- R29: `READY` changes in no step but a reset, which the host takes (R190) and which sets it by the table check. -/
def Obligations.ReadyOnlyByReset : Prop :=
  ∀ s t : State, step s = .next t →
    t.ready = s.ready ∨
      ((∃ p m, HostResets s m ∧ t = resetCore { s with pending := p, hostMoves := m }) ∧ t.ready = tableOk s.rom)

/-- R32, R60: a command is taken off the port only when no walk is in progress, and only a DECODE leaves a walk in
progress: a core that becomes busy had an accepted DECODE word. That integer calls are among the requests the port holds is
the model's choice (log entries 4 and 7). -/
def Obligations.BusyOnlyByDecode : Prop :=
  ∀ s t : State, coreStep s = .next t →
    (s.busy = true → t.pending = s.pending) ∧
    (s.busy = false → t.busy = true →
      ∃ rest, s.pending = .word 0x3000#16 :: rest ∧ t.pending = rest ∧ cmdReady s = true)

/-! ### Invariants -/

/-- R29, R31, R36, R37: the invariant of the core holds at reset, and after a reset of any state. -/
def Obligations.InvAtReset : Prop :=
  Inv State.reset ∧ ∀ s : State, Inv (resetCore s)

/-- R29, R31, R36, R37, R25 to R27: every step keeps it. -/
def Obligations.StepKeepsInv : Prop :=
  ∀ s t : State, Inv s → step s = .next t → Inv t

/-- 43_decoder.md R155: under the invariant the depth guard never fires: a micro-step raises no fault, and a walk at depth
32 is at a leaf. That an integer call presented in that step, of 256 or more too, waits and raises none, and that the port
holds several requests, is the model's choice (log entries 7 and 4). -/
def Obligations.DepthGuardNeverFires : Prop :=
  ∀ (s : State) (p : List HostRequest) (m : List HostMove), Inv s → s.busy = true → CoreRuns s p m →
    (∀ t, step s = .next t → t.fault = .noFault) ∧
    (leafTest s.rom s.walkP s.walkN = none → s.walkN ≠ 32#6)

/-! ### The table and the trie -/

/-- 40_code_table.md R107: of an admissible table the longest code is 27, no code has length 1, and every length is in
2..27. -/
def Obligations.AdmissibleLengths : Prop :=
  ∀ T : CodeTable, AdmissibleTable T →
    longestCode T = 27 ∧ ∀ v, 2 ≤ (romRead T v).bits.toNat ∧ (romRead T v).bits.toNat ≤ 27

/-- For a table that satisfies R102 and R104, the Kraft equality is the completeness of R105. The spec marks this
equivalence (its R106, its G1) as general knowledge, not the source's. -/
def Obligations.KraftEquality : Prop :=
  ∀ T : CodeTable, LengthsLegal T → CodesPrefixFree T →
    (CodesComplete T ↔ (T.toList.map (fun e => 2 ^ (32 - e.bits.toNat))).sum = 2 ^ 32)

/-- 41_trie.md R125: the leaf test says which entry a node is, and agrees with the leaves of the built trie. -/
def Obligations.LeafTestIsTrieLeaf : Prop :=
  ∀ (T : CodeTable) (trie : Trie) (p : Code) (n : Len) (v : Symbol), tableOk T = true → buildTrie T = some trie →
    n.toNat ≤ 32 → p.toNat < 2 ^ n.toNat →
    (leafTest T p n = some v ↔ romRead T v = ⟨p, n⟩) ∧
    (leafTest T p n = some v ↔ trieNode trie (bitstr p n.toNat) = some (.leaf v))

/-- R127: each bit string of length at most 32 is a leaf exactly when it is a code, internal exactly when it is a proper
prefix of a code, and no node exactly when a code is a proper prefix of it. -/
def Obligations.NodeKinds : Prop :=
  ∀ (T : CodeTable) (trie : Trie) (x : BitString), tableOk T = true → buildTrie T = some trie → x.length ≤ 32 →
    (∀ v, trieNode trie x = some (.leaf v) ↔ x = codeString (romRead T v)) ∧
    ((∃ zero one, trieNode trie x = some (.internal zero one)) ↔
      ∃ v, x <+: codeString (romRead T v) ∧ x ≠ codeString (romRead T v)) ∧
    (trieNode trie x = none ↔ ∃ v, codeString (romRead T v) <+: x ∧ codeString (romRead T v) ≠ x)

/-- R128, R129: 256 leaves, one per symbol, 255 internal nodes, depth the longest code (27 for the reference table), an
internal root. The count of 255 internal nodes the spec marks as general knowledge (its G3), not the source's. -/
def Obligations.TrieCounts : Prop :=
  ∀ (T : CodeTable) (trie : Trie), tableOk T = true → buildTrie T = some trie →
    (trieLeaves trie).length = 256 ∧ (trieLeaves trie).Nodup ∧ (∀ v, v ∈ trieLeaves trie) ∧
    trieInternals trie = 255 ∧ (trieLeaves trie).length + trieInternals trie = 511 ∧
    trieDepth trie = longestCode T ∧ (pinnedRows T = true → trieDepth trie = 27) ∧
    ∃ zero one, trie = .internal zero one

/-- R130: the nodes the pinned entries fix. -/
def Obligations.PinnedNodes : Prop :=
  ∀ (T : CodeTable) (trie : Trie), AdmissibleTable T → buildTrie T = some trie →
    let internal (x : BitString) : Prop := ∃ zero one, trieNode trie x = some (.internal zero one)
    internal [] ∧ internal [false] ∧ internal [true] ∧ internal [true, false] ∧ internal [true, true] ∧
    trieNode trie [false, false] = some (.leaf 0) ∧ trieNode trie [true, false, false] = some (.leaf 1) ∧
    trieNode trie (bitstr 0x623FE66#32 27) = some (.leaf 255) ∧
    (∀ x, x <+: bitstr 0x623FE66#32 27 → x ≠ bitstr 0x623FE66#32 27 → internal x)
end

