-- ==== Sys2Proof/Laws/Bits.lean ====
section
/-! SUPPORT. Bit strings of words: lengths, leading parts, extension by one bit, equality (00_scope.md R13). -/

namespace Sys2Proof.Machine

@[simp] theorem bitstr_zero (c : Code) : bitstr c 0 = [] := rfl

@[simp] theorem bitstr_succ (c : Code) (n : Nat) : bitstr c (n + 1) = c.getLsbD n :: bitstr c n := rfl

@[simp] theorem bitstr_length (c : Code) (n : Nat) : (bitstr c n).length = n := by
  induction n with
  | zero => rfl
  | succ n ih => simp [ih]

/-- The string depends only on the bits below its length. -/
theorem bitstr_congr {c d : Code} {n : Nat} (h : ∀ i < n, c.getLsbD i = d.getLsbD i) :
    bitstr c n = bitstr d n := by
  induction n with
  | zero => rfl
  | succ n ih => simp [h n (by omega), ih fun i hi => h i (by omega)]

/-- Equal strings of one length have equal bits below it. -/
theorem getLsbD_of_bitstr_eq {c d : Code} {n : Nat} (h : bitstr c n = bitstr d n) :
    ∀ i < n, c.getLsbD i = d.getLsbD i := by
  induction n with
  | zero => intro i hi; omega
  | succ n ih =>
    obtain ⟨hb, ht⟩ := List.cons.inj h
    intro i hi
    rcases Nat.lt_succ_iff_lt_or_eq.mp hi with hlt | rfl
    · exact ih ht i hlt
    · exact hb

/-- The leading `n` bits of an `(m + n)`-bit string are the string of the shifted word. -/
theorem bitstr_add (c : Code) (m n : Nat) : bitstr c (n + m) = bitstr (c >>> m) n ++ bitstr c m := by
  induction n with
  | zero => simp
  | succ n ih =>
    rw [show n + 1 + m = (n + m) + 1 by omega, bitstr_succ, ih]
    simp [BitVec.getLsbD_ushiftRight, Nat.add_comm]

theorem getLsbD_of_lt_two_pow {c : Code} {n i : Nat} (h : c.toNat < 2 ^ n) (hi : n ≤ i) :
    c.getLsbD i = false := by
  rw [BitVec.getLsbD]
  exact Nat.testBit_lt_two_pow (lt_of_lt_of_le h (Nat.pow_le_pow_right (by decide) hi))

/-- Two words in range are equal when their strings are (R103). -/
theorem bitstr_inj {c d : Code} {n : Nat} (hc : c.toNat < 2 ^ n) (hd : d.toNat < 2 ^ n)
    (h : bitstr c n = bitstr d n) : c = d := by
  apply BitVec.eq_of_getLsbD_eq
  intro i _
  rcases Nat.lt_or_ge i n with hi | hi
  · exact getLsbD_of_bitstr_eq h i hi
  · rw [getLsbD_of_lt_two_pow hc hi, getLsbD_of_lt_two_pow hd hi]

/-- A shift by one with the bit `b` put in extends the string by `b` (R122, R151). -/
theorem bitstr_extend (p : Code) (b : Bool) {n : Nat} (hn : n < 32) :
    bitstr (p <<< 1 ||| (if b then 1#32 else 0#32)) (n + 1) = bitstr p n ++ [b] := by
  rw [bitstr_add _ 1 n, bitstr_succ, bitstr_zero]
  have hb : (p <<< 1 ||| (if b then 1#32 else 0#32) : Code).getLsbD 0 = b := by cases b <;> simp
  have ht : bitstr ((p <<< 1 ||| (if b then 1#32 else 0#32) : Code) >>> 1) n = bitstr p n := by
    apply bitstr_congr
    intro i hi
    have h1 : (if b then 1#32 else 0#32 : Code).getLsbD (1 + i) = false := by
      cases b
      · simp
      · simp
    have h2 : 1 + i < 32 := by omega
    rw [BitVec.getLsbD_ushiftRight, BitVec.getLsbD_or, h1, BitVec.getLsbD_shiftLeft]
    simp [h2]
  rw [hb, ht]

/-- The extended word stays in range. -/
theorem extend_lt {p : Code} (b : Bool) {n : Nat} (hn : n < 32) (hp : p.toNat < 2 ^ n) :
    (p <<< 1 ||| (if b then 1#32 else 0#32) : Code).toNat < 2 ^ (n + 1) := by
  have hle : (2 : Nat) ^ (n + 1) ≤ 2 ^ 32 := Nat.pow_le_pow_right (by decide) hn
  have h2 : (2 : Nat) ^ (n + 1) = 2 * 2 ^ n := by ring
  have hs : (p <<< 1 : Code).toNat < 2 ^ (n + 1) := by
    rw [BitVec.toNat_shiftLeft, Nat.shiftLeft_eq]
    exact lt_of_le_of_lt (Nat.mod_le _ _) (by omega)
  have h1 : (if b then 1#32 else 0#32 : Code).toNat < 2 ^ (n + 1) := by
    have := Nat.one_le_two_pow (n := n)
    cases b <;> simp
  rw [BitVec.toNat_or]
  exact Nat.or_lt_two_pow hs h1

end Sys2Proof.Machine
end

