-- ==== Sys2Proof/Laws/State.lean ====
section
/-! SUPPORT. What each named operation over the state leaves in each field: one lemma per field per operation. -/

namespace Sys2Proof.Machine

/-! ### clearFlags -/

@[simp] theorem clearFlags_rom (s : State) : (clearFlags s).rom = s.rom := rfl
@[simp] theorem clearFlags_ready (s : State) : (clearFlags s).ready = s.ready := rfl
@[simp] theorem clearFlags_busy (s : State) : (clearFlags s).busy = s.busy := rfl
@[simp] theorem clearFlags_resValid (s : State) : (clearFlags s).resValid = false := rfl
@[simp] theorem clearFlags_eos (s : State) : (clearFlags s).eos = false := rfl
@[simp] theorem clearFlags_fault (s : State) : (clearFlags s).fault = s.fault := rfl
@[simp] theorem clearFlags_resSym (s : State) : (clearFlags s).resSym = s.resSym := rfl
@[simp] theorem clearFlags_resCode (s : State) : (clearFlags s).resCode = s.resCode := rfl
@[simp] theorem clearFlags_resBits (s : State) : (clearFlags s).resBits = s.resBits := rfl
@[simp] theorem clearFlags_walkP (s : State) : (clearFlags s).walkP = s.walkP := rfl
@[simp] theorem clearFlags_walkN (s : State) : (clearFlags s).walkN = s.walkN := rfl
@[simp] theorem clearFlags_sink (s : State) : (clearFlags s).sink = s.sink := rfl
@[simp] theorem clearFlags_src (s : State) : (clearFlags s).src = s.src := rfl
@[simp] theorem clearFlags_pending (s : State) : (clearFlags s).pending = s.pending := rfl
@[simp] theorem clearFlags_hostMoves (s : State) : (clearFlags s).hostMoves = s.hostMoves := rfl

/-! ### sinkAppend -/

@[simp] theorem sinkAppend_rom (n : Len) (d : Code) (s : State) : (sinkAppend n d s).rom = s.rom := rfl
@[simp] theorem sinkAppend_ready (n : Len) (d : Code) (s : State) : (sinkAppend n d s).ready = s.ready := rfl
@[simp] theorem sinkAppend_busy (n : Len) (d : Code) (s : State) : (sinkAppend n d s).busy = s.busy := rfl
@[simp] theorem sinkAppend_resValid (n : Len) (d : Code) (s : State) : (sinkAppend n d s).resValid = s.resValid := rfl
@[simp] theorem sinkAppend_eos (n : Len) (d : Code) (s : State) : (sinkAppend n d s).eos = s.eos := rfl
@[simp] theorem sinkAppend_fault (n : Len) (d : Code) (s : State) : (sinkAppend n d s).fault = s.fault := rfl
@[simp] theorem sinkAppend_resSym (n : Len) (d : Code) (s : State) : (sinkAppend n d s).resSym = s.resSym := rfl
@[simp] theorem sinkAppend_resCode (n : Len) (d : Code) (s : State) : (sinkAppend n d s).resCode = s.resCode := rfl
@[simp] theorem sinkAppend_resBits (n : Len) (d : Code) (s : State) : (sinkAppend n d s).resBits = s.resBits := rfl
@[simp] theorem sinkAppend_walkP (n : Len) (d : Code) (s : State) : (sinkAppend n d s).walkP = s.walkP := rfl
@[simp] theorem sinkAppend_walkN (n : Len) (d : Code) (s : State) : (sinkAppend n d s).walkN = s.walkN := rfl
@[simp] theorem sinkAppend_sink (n : Len) (d : Code) (s : State) :
    (sinkAppend n d s).sink = s.sink ++ bitstr d n.toNat := rfl
@[simp] theorem sinkAppend_src (n : Len) (d : Code) (s : State) : (sinkAppend n d s).src = s.src := rfl
@[simp] theorem sinkAppend_pending (n : Len) (d : Code) (s : State) : (sinkAppend n d s).pending = s.pending := rfl
@[simp] theorem sinkAppend_hostMoves (n : Len) (d : Code) (s : State) :
    (sinkAppend n d s).hostMoves = s.hostMoves := rfl

/-! ### setResult -/

@[simp] theorem setResult_rom (v : Symbol) (c : Code) (n : Len) (s : State) : (setResult v c n s).rom = s.rom := rfl
@[simp] theorem setResult_ready (v : Symbol) (c : Code) (n : Len) (s : State) :
    (setResult v c n s).ready = s.ready := rfl
@[simp] theorem setResult_busy (v : Symbol) (c : Code) (n : Len) (s : State) :
    (setResult v c n s).busy = s.busy := rfl
@[simp] theorem setResult_resValid (v : Symbol) (c : Code) (n : Len) (s : State) :
    (setResult v c n s).resValid = true := rfl
@[simp] theorem setResult_eos (v : Symbol) (c : Code) (n : Len) (s : State) : (setResult v c n s).eos = s.eos := rfl
@[simp] theorem setResult_fault (v : Symbol) (c : Code) (n : Len) (s : State) :
    (setResult v c n s).fault = s.fault := rfl
@[simp] theorem setResult_resSym (v : Symbol) (c : Code) (n : Len) (s : State) : (setResult v c n s).resSym = v := rfl
@[simp] theorem setResult_resCode (v : Symbol) (c : Code) (n : Len) (s : State) :
    (setResult v c n s).resCode = c := rfl
@[simp] theorem setResult_resBits (v : Symbol) (c : Code) (n : Len) (s : State) :
    (setResult v c n s).resBits = n := rfl
@[simp] theorem setResult_walkP (v : Symbol) (c : Code) (n : Len) (s : State) :
    (setResult v c n s).walkP = s.walkP := rfl
@[simp] theorem setResult_walkN (v : Symbol) (c : Code) (n : Len) (s : State) :
    (setResult v c n s).walkN = s.walkN := rfl
@[simp] theorem setResult_sink (v : Symbol) (c : Code) (n : Len) (s : State) :
    (setResult v c n s).sink = s.sink := rfl
@[simp] theorem setResult_src (v : Symbol) (c : Code) (n : Len) (s : State) : (setResult v c n s).src = s.src := rfl
@[simp] theorem setResult_pending (v : Symbol) (c : Code) (n : Len) (s : State) :
    (setResult v c n s).pending = s.pending := rfl
@[simp] theorem setResult_hostMoves (v : Symbol) (c : Code) (n : Len) (s : State) :
    (setResult v c n s).hostMoves = s.hostMoves := rfl

/-! ### setEndOfStream -/

@[simp] theorem setEndOfStream_rom (s : State) : (setEndOfStream s).rom = s.rom := rfl
@[simp] theorem setEndOfStream_ready (s : State) : (setEndOfStream s).ready = s.ready := rfl
@[simp] theorem setEndOfStream_busy (s : State) : (setEndOfStream s).busy = s.busy := rfl
@[simp] theorem setEndOfStream_resValid (s : State) : (setEndOfStream s).resValid = s.resValid := rfl
@[simp] theorem setEndOfStream_eos (s : State) : (setEndOfStream s).eos = true := rfl
@[simp] theorem setEndOfStream_fault (s : State) : (setEndOfStream s).fault = s.fault := rfl
@[simp] theorem setEndOfStream_resSym (s : State) : (setEndOfStream s).resSym = s.resSym := rfl
@[simp] theorem setEndOfStream_resCode (s : State) : (setEndOfStream s).resCode = s.resCode := rfl
@[simp] theorem setEndOfStream_resBits (s : State) : (setEndOfStream s).resBits = s.walkN := rfl
@[simp] theorem setEndOfStream_walkP (s : State) : (setEndOfStream s).walkP = s.walkP := rfl
@[simp] theorem setEndOfStream_walkN (s : State) : (setEndOfStream s).walkN = s.walkN := rfl
@[simp] theorem setEndOfStream_sink (s : State) : (setEndOfStream s).sink = s.sink := rfl
@[simp] theorem setEndOfStream_src (s : State) : (setEndOfStream s).src = s.src := rfl
@[simp] theorem setEndOfStream_pending (s : State) : (setEndOfStream s).pending = s.pending := rfl
@[simp] theorem setEndOfStream_hostMoves (s : State) : (setEndOfStream s).hostMoves = s.hostMoves := rfl

/-! ### startWalk -/

@[simp] theorem startWalk_rom (s : State) : (startWalk s).rom = s.rom := rfl
@[simp] theorem startWalk_ready (s : State) : (startWalk s).ready = s.ready := rfl
@[simp] theorem startWalk_busy (s : State) : (startWalk s).busy = true := rfl
@[simp] theorem startWalk_resValid (s : State) : (startWalk s).resValid = s.resValid := rfl
@[simp] theorem startWalk_eos (s : State) : (startWalk s).eos = s.eos := rfl
@[simp] theorem startWalk_fault (s : State) : (startWalk s).fault = s.fault := rfl
@[simp] theorem startWalk_resSym (s : State) : (startWalk s).resSym = s.resSym := rfl
@[simp] theorem startWalk_resCode (s : State) : (startWalk s).resCode = s.resCode := rfl
@[simp] theorem startWalk_resBits (s : State) : (startWalk s).resBits = s.resBits := rfl
@[simp] theorem startWalk_walkP (s : State) : (startWalk s).walkP = 0#32 := rfl
@[simp] theorem startWalk_walkN (s : State) : (startWalk s).walkN = 0#6 := rfl
@[simp] theorem startWalk_sink (s : State) : (startWalk s).sink = s.sink := rfl
@[simp] theorem startWalk_src (s : State) : (startWalk s).src = s.src := rfl
@[simp] theorem startWalk_pending (s : State) : (startWalk s).pending = s.pending := rfl
@[simp] theorem startWalk_hostMoves (s : State) : (startWalk s).hostMoves = s.hostMoves := rfl

/-! ### advanceWalk -/

@[simp] theorem advanceWalk_rom (b : Bool) (s : State) : (advanceWalk b s).rom = s.rom := rfl
@[simp] theorem advanceWalk_ready (b : Bool) (s : State) : (advanceWalk b s).ready = s.ready := rfl
@[simp] theorem advanceWalk_busy (b : Bool) (s : State) : (advanceWalk b s).busy = s.busy := rfl
@[simp] theorem advanceWalk_resValid (b : Bool) (s : State) : (advanceWalk b s).resValid = s.resValid := rfl
@[simp] theorem advanceWalk_eos (b : Bool) (s : State) : (advanceWalk b s).eos = s.eos := rfl
@[simp] theorem advanceWalk_fault (b : Bool) (s : State) : (advanceWalk b s).fault = s.fault := rfl
@[simp] theorem advanceWalk_resSym (b : Bool) (s : State) : (advanceWalk b s).resSym = s.resSym := rfl
@[simp] theorem advanceWalk_resCode (b : Bool) (s : State) : (advanceWalk b s).resCode = s.resCode := rfl
@[simp] theorem advanceWalk_resBits (b : Bool) (s : State) : (advanceWalk b s).resBits = s.resBits := rfl
@[simp] theorem advanceWalk_walkP (b : Bool) (s : State) :
    (advanceWalk b s).walkP = s.walkP <<< 1 ||| (if b then 1#32 else 0#32) := rfl
@[simp] theorem advanceWalk_walkN (b : Bool) (s : State) : (advanceWalk b s).walkN = s.walkN + 1#6 := rfl
@[simp] theorem advanceWalk_sink (b : Bool) (s : State) : (advanceWalk b s).sink = s.sink := rfl
@[simp] theorem advanceWalk_src (b : Bool) (s : State) : (advanceWalk b s).src = s.src := rfl
@[simp] theorem advanceWalk_pending (b : Bool) (s : State) : (advanceWalk b s).pending = s.pending := rfl
@[simp] theorem advanceWalk_hostMoves (b : Bool) (s : State) : (advanceWalk b s).hostMoves = s.hostMoves := rfl

/-! ### endWalk -/

@[simp] theorem endWalk_rom (s : State) : (endWalk s).rom = s.rom := rfl
@[simp] theorem endWalk_ready (s : State) : (endWalk s).ready = s.ready := rfl
@[simp] theorem endWalk_busy (s : State) : (endWalk s).busy = false := rfl
@[simp] theorem endWalk_resValid (s : State) : (endWalk s).resValid = s.resValid := rfl
@[simp] theorem endWalk_eos (s : State) : (endWalk s).eos = s.eos := rfl
@[simp] theorem endWalk_fault (s : State) : (endWalk s).fault = s.fault := rfl
@[simp] theorem endWalk_resSym (s : State) : (endWalk s).resSym = s.resSym := rfl
@[simp] theorem endWalk_resCode (s : State) : (endWalk s).resCode = s.resCode := rfl
@[simp] theorem endWalk_resBits (s : State) : (endWalk s).resBits = s.resBits := rfl
@[simp] theorem endWalk_walkP (s : State) : (endWalk s).walkP = 0#32 := rfl
@[simp] theorem endWalk_walkN (s : State) : (endWalk s).walkN = 0#6 := rfl
@[simp] theorem endWalk_sink (s : State) : (endWalk s).sink = s.sink := rfl
@[simp] theorem endWalk_src (s : State) : (endWalk s).src = s.src := rfl
@[simp] theorem endWalk_pending (s : State) : (endWalk s).pending = s.pending := rfl
@[simp] theorem endWalk_hostMoves (s : State) : (endWalk s).hostMoves = s.hostMoves := rfl

/-! ### raiseFault -/

@[simp] theorem raiseFault_rom (f : FaultCode) (s : State) : (raiseFault f s).rom = s.rom := rfl
@[simp] theorem raiseFault_ready (f : FaultCode) (s : State) : (raiseFault f s).ready = s.ready := rfl
@[simp] theorem raiseFault_busy (f : FaultCode) (s : State) : (raiseFault f s).busy = false := rfl
@[simp] theorem raiseFault_resValid (f : FaultCode) (s : State) : (raiseFault f s).resValid = s.resValid := rfl
@[simp] theorem raiseFault_eos (f : FaultCode) (s : State) : (raiseFault f s).eos = s.eos := rfl
@[simp] theorem raiseFault_fault (f : FaultCode) (s : State) :
    (raiseFault f s).fault = if s.fault = .noFault then f else s.fault := rfl
@[simp] theorem raiseFault_resSym (f : FaultCode) (s : State) : (raiseFault f s).resSym = s.resSym := rfl
@[simp] theorem raiseFault_resCode (f : FaultCode) (s : State) : (raiseFault f s).resCode = s.resCode := rfl
@[simp] theorem raiseFault_resBits (f : FaultCode) (s : State) : (raiseFault f s).resBits = s.resBits := rfl
@[simp] theorem raiseFault_walkP (f : FaultCode) (s : State) : (raiseFault f s).walkP = s.walkP := rfl
@[simp] theorem raiseFault_walkN (f : FaultCode) (s : State) : (raiseFault f s).walkN = s.walkN := rfl
@[simp] theorem raiseFault_sink (f : FaultCode) (s : State) : (raiseFault f s).sink = s.sink := rfl
@[simp] theorem raiseFault_src (f : FaultCode) (s : State) : (raiseFault f s).src = s.src := rfl
@[simp] theorem raiseFault_pending (f : FaultCode) (s : State) : (raiseFault f s).pending = s.pending := rfl
@[simp] theorem raiseFault_hostMoves (f : FaultCode) (s : State) : (raiseFault f s).hostMoves = s.hostMoves := rfl

/-! ### placeWord -/

@[simp] theorem placeWord_rom (w : CmdWord) (s : State) : (placeWord w s).rom = s.rom := rfl
@[simp] theorem placeWord_ready (w : CmdWord) (s : State) : (placeWord w s).ready = true := rfl
@[simp] theorem placeWord_busy (w : CmdWord) (s : State) : (placeWord w s).busy = false := rfl
@[simp] theorem placeWord_resValid (w : CmdWord) (s : State) : (placeWord w s).resValid = s.resValid := rfl
@[simp] theorem placeWord_eos (w : CmdWord) (s : State) : (placeWord w s).eos = s.eos := rfl
@[simp] theorem placeWord_fault (w : CmdWord) (s : State) : (placeWord w s).fault = .noFault := rfl
@[simp] theorem placeWord_resSym (w : CmdWord) (s : State) : (placeWord w s).resSym = s.resSym := rfl
@[simp] theorem placeWord_resCode (w : CmdWord) (s : State) : (placeWord w s).resCode = s.resCode := rfl
@[simp] theorem placeWord_resBits (w : CmdWord) (s : State) : (placeWord w s).resBits = s.resBits := rfl
@[simp] theorem placeWord_walkP (w : CmdWord) (s : State) : (placeWord w s).walkP = s.walkP := rfl
@[simp] theorem placeWord_walkN (w : CmdWord) (s : State) : (placeWord w s).walkN = s.walkN := rfl
@[simp] theorem placeWord_sink (w : CmdWord) (s : State) : (placeWord w s).sink = s.sink := rfl
@[simp] theorem placeWord_src (w : CmdWord) (s : State) : (placeWord w s).src = s.src := rfl
@[simp] theorem placeWord_pending (w : CmdWord) (s : State) : (placeWord w s).pending = .word w :: s.pending := rfl
@[simp] theorem placeWord_hostMoves (w : CmdWord) (s : State) :
    (placeWord w s).hostMoves = .tick :: s.hostMoves := rfl

/-! ### resetCore -/

@[simp] theorem resetCore_rom (s : State) : (resetCore s).rom = s.rom := by
  cases h : tableOk s.rom <;> simp [resetCore, trieInit, h]
@[simp] theorem resetCore_ready (s : State) : (resetCore s).ready = tableOk s.rom := by
  cases h : tableOk s.rom <;> simp [resetCore, trieInit, h]
@[simp] theorem resetCore_busy (s : State) : (resetCore s).busy = false := by
  cases h : tableOk s.rom <;> simp [resetCore, trieInit, h]
@[simp] theorem resetCore_resValid (s : State) : (resetCore s).resValid = false := by
  cases h : tableOk s.rom <;> simp [resetCore, trieInit, h]
@[simp] theorem resetCore_eos (s : State) : (resetCore s).eos = false := by
  cases h : tableOk s.rom <;> simp [resetCore, trieInit, h]
@[simp] theorem resetCore_fault (s : State) :
    (resetCore s).fault = if tableOk s.rom then .noFault else .malformedTable := by
  cases h : tableOk s.rom <;> simp [resetCore, trieInit, h]
@[simp] theorem resetCore_resSym (s : State) : (resetCore s).resSym = 0#8 := by
  cases h : tableOk s.rom <;> simp [resetCore, trieInit, h]
@[simp] theorem resetCore_resCode (s : State) : (resetCore s).resCode = 0#32 := by
  cases h : tableOk s.rom <;> simp [resetCore, trieInit, h]
@[simp] theorem resetCore_resBits (s : State) : (resetCore s).resBits = 0#6 := by
  cases h : tableOk s.rom <;> simp [resetCore, trieInit, h]
@[simp] theorem resetCore_walkP (s : State) : (resetCore s).walkP = 0#32 := by
  cases h : tableOk s.rom <;> simp [resetCore, trieInit, h]
@[simp] theorem resetCore_walkN (s : State) : (resetCore s).walkN = 0#6 := by
  cases h : tableOk s.rom <;> simp [resetCore, trieInit, h]
@[simp] theorem resetCore_sink (s : State) : (resetCore s).sink = s.sink := by
  cases h : tableOk s.rom <;> simp [resetCore, trieInit, h]
@[simp] theorem resetCore_src (s : State) : (resetCore s).src = s.src := by
  cases h : tableOk s.rom <;> simp [resetCore, trieInit, h]
@[simp] theorem resetCore_pending (s : State) : (resetCore s).pending = s.pending := by
  cases h : tableOk s.rom <;> simp [resetCore, trieInit, h]
@[simp] theorem resetCore_hostMoves (s : State) : (resetCore s).hostMoves = s.hostMoves := by
  cases h : tableOk s.rom <;> simp [resetCore, trieInit, h]

/-! ### resetStep -/

@[simp] theorem resetStep_rom (s : State) : (resetStep s).rom = s.rom := by simp [resetStep]
@[simp] theorem resetStep_ready (s : State) : (resetStep s).ready = tableOk s.rom := by simp [resetStep]
@[simp] theorem resetStep_busy (s : State) : (resetStep s).busy = false := by simp [resetStep]
@[simp] theorem resetStep_resValid (s : State) : (resetStep s).resValid = false := by simp [resetStep]
@[simp] theorem resetStep_eos (s : State) : (resetStep s).eos = false := by simp [resetStep]
@[simp] theorem resetStep_fault (s : State) :
    (resetStep s).fault = if tableOk s.rom then .noFault else .malformedTable := by simp [resetStep]
@[simp] theorem resetStep_resSym (s : State) : (resetStep s).resSym = 0#8 := by simp [resetStep]
@[simp] theorem resetStep_resCode (s : State) : (resetStep s).resCode = 0#32 := by simp [resetStep]
@[simp] theorem resetStep_resBits (s : State) : (resetStep s).resBits = 0#6 := by simp [resetStep]
@[simp] theorem resetStep_walkP (s : State) : (resetStep s).walkP = 0#32 := by simp [resetStep]
@[simp] theorem resetStep_walkN (s : State) : (resetStep s).walkN = 0#6 := by simp [resetStep]
@[simp] theorem resetStep_sink (s : State) : (resetStep s).sink = s.sink := by simp [resetStep]
@[simp] theorem resetStep_src (s : State) : (resetStep s).src = s.src := by simp [resetStep]
@[simp] theorem resetStep_pending (s : State) :
    (resetStep s).pending = if cmdReady s then s.pending.tail else s.pending := by simp [resetStep]
@[simp] theorem resetStep_hostMoves (s : State) : (resetStep s).hostMoves = s.hostMoves := by simp [resetStep]

end Sys2Proof.Machine
end

