-- ==== Sys2Proof/Laws/Table.lean ====
section
/-! SUPPORT. The code table: what the numeric prefix test, the leaf test, the construction and the reset-time check say
in terms of bit strings (40_code_table.md R102 to R105, 41_trie.md R122 to R125). -/

namespace Sys2Proof.Machine

/-! ### Entries -/

theorem lengthOk_iff (e : RomEntry) : lengthOk e = true ↔ 1 ≤ e.bits.toNat ∧ e.bits.toNat ≤ 32 := by
  simp [lengthOk, Nat.ble_eq]

theorem rangeOk_iff (e : RomEntry) : rangeOk e = true ↔ e.code.toNat < 2 ^ e.bits.toNat := by
  simp [rangeOk, Nat.blt_eq]

@[simp] theorem codeString_length (e : RomEntry) : (codeString e).length = e.bits.toNat := bitstr_length _ _

/-- The numeric prefix test is the prefix test on bit strings (R104). -/
theorem entryPrefix_iff {a b : RomEntry} (ha : rangeOk a = true) (hb : rangeOk b = true) :
    entryPrefix a b = true ↔ codeString a <+: codeString b := by
  rw [rangeOk_iff] at ha hb
  simp only [entryPrefix, Bool.and_eq_true, Nat.ble_eq, Nat.beq_eq]
  constructor
  · rintro ⟨hle, hq⟩
    have hn : b.bits.toNat = a.bits.toNat + (b.bits.toNat - a.bits.toNat) := by omega
    have hc : b.code >>> (b.bits.toNat - a.bits.toNat) = a.code := by
      apply BitVec.eq_of_toNat_eq
      rw [BitVec.toNat_ushiftRight, Nat.shiftRight_eq_div_pow, hq]
    rw [codeString, codeString, hn, bitstr_add, hc]
    exact List.prefix_append _ _
  · intro h
    have hle : a.bits.toNat ≤ b.bits.toNat := by simpa using h.length_le
    obtain ⟨m, hm⟩ := Nat.exists_eq_add_of_le hle
    refine ⟨hle, ?_⟩
    rw [codeString, codeString, hm, bitstr_add] at h
    have he : bitstr a.code a.bits.toNat = bitstr (b.code >>> m) a.bits.toNat :=
      (List.prefix_of_prefix_length_le h (List.prefix_append _ _) (by simp)).eq_of_length (by simp)
    have hlt : (b.code >>> m).toNat < 2 ^ a.bits.toNat := by
      rw [BitVec.toNat_ushiftRight, Nat.shiftRight_eq_div_pow]
      apply Nat.div_lt_of_lt_mul
      rw [← pow_add, Nat.add_comm m, ← hm]
      exact hb
    have hc := bitstr_inj ha hlt he
    rw [hm, Nat.add_sub_cancel_left, ← Nat.shiftRight_eq_div_pow, ← BitVec.toNat_ushiftRight, ← hc]

/-- The prefix test over a list, pair by pair. -/
theorem prefixFree_iff (l : List RomEntry) :
    prefixFree l = true ↔ l.Pairwise fun d e => entryPrefix d e = false ∧ entryPrefix e d = false := by
  induction l with
  | nil => simp [prefixFree]
  | cons e es ih => simp [prefixFree, ih]

/-! ### Reading -/

/-- An entry is read at its place in the list of all entries. -/
theorem romRead_eq_getElem (T : CodeTable) (v : Symbol) :
    romRead T v = T.toList[v.toNat]'(by simpa using v.isLt) := by
  simp [romRead]

theorem romRead_mem (T : CodeTable) (v : Symbol) : romRead T v ∈ T.toList := by
  rw [romRead_eq_getElem]; exact List.getElem_mem _

/-- Every entry of the list is some symbol's. -/
theorem exists_romRead_of_mem {T : CodeTable} {e : RomEntry} (h : e ∈ T.toList) : ∃ v, romRead T v = e := by
  obtain ⟨i, hi, rfl⟩ := List.getElem_of_mem h
  have hi' : i < 256 := by simpa using hi
  refine ⟨BitVec.ofNat 8 i, ?_⟩
  rw [romRead_eq_getElem]
  simp [Nat.mod_eq_of_lt hi']

/-- A check of all entries is a check of every symbol's. -/
theorem all_iff_romRead (T : CodeTable) (f : RomEntry → Bool) :
    T.toList.all f = true ↔ ∀ v, f (romRead T v) = true := by
  rw [List.all_eq_true]
  constructor
  · intro h v; exact h _ (romRead_mem T v)
  · intro h e he; obtain ⟨v, rfl⟩ := exists_romRead_of_mem he; exact h v

/-- R104 on the table: entries of distinct symbols, neither a prefix of the other. -/
theorem prefixFree_table_iff (T : CodeTable) :
    prefixFree T.toList = true ↔
      ∀ u v : Symbol, u ≠ v → entryPrefix (romRead T u) (romRead T v) = false := by
  rw [prefixFree_iff, List.pairwise_iff_getElem]
  constructor
  · intro h u v huv
    have hne : u.toNat ≠ v.toNat := fun he => huv (BitVec.eq_of_toNat_eq he)
    rw [romRead_eq_getElem, romRead_eq_getElem]
    rcases Nat.lt_or_gt_of_ne hne with hlt | hlt
    · exact (h u.toNat v.toNat (by simpa using u.isLt) (by simpa using v.isLt) hlt).1
    · exact (h v.toNat u.toNat (by simpa using v.isLt) (by simpa using u.isLt) hlt).2
  · intro h i j hi hj hij
    have hi' : i < 256 := by simpa using hi
    have hj' : j < 256 := by simpa using hj
    have hne : BitVec.ofNat 8 i ≠ BitVec.ofNat 8 j := by
      intro he
      have := congrArg BitVec.toNat he
      simp [Nat.mod_eq_of_lt hi', Nat.mod_eq_of_lt hj'] at this
      omega
    have h1 := h _ _ hne
    have h2 := h _ _ hne.symm
    rw [romRead_eq_getElem, romRead_eq_getElem] at h1 h2
    simp only [BitVec.toNat_ofNat, Nat.reducePow, Nat.mod_eq_of_lt hi', Nat.mod_eq_of_lt hj'] at h1 h2
    exact ⟨h1, h2⟩

/-! ### The leaf test -/

theorem entry_eq_iff (e : RomEntry) (p : Code) (n : Len) :
    (Nat.beq e.bits.toNat n.toNat && Nat.beq e.code.toNat p.toNat) = true ↔ e = ⟨p, n⟩ := by
  obtain ⟨c, m⟩ := e
  simp only [Bool.and_eq_true, Nat.beq_eq, RomEntry.mk.injEq, ← BitVec.toNat_inj]
  exact and_comm

/-- The scan answers the place of the first entry that is `(p, n)`. -/
theorem leafFrom_eq_some {p : Code} {n : Len} {v : Symbol} :
    ∀ {l : List RomEntry} {k : Nat}, leafFrom p n l k = some v →
      ∃ i, ∃ h : i < l.length, v = BitVec.ofNat 8 (k + i) ∧ l[i] = ⟨p, n⟩
  | [], _, h => by simp [leafFrom] at h
  | e :: es, k, h => by
    simp only [leafFrom, entry_eq_iff] at h
    split at h
    · exact ⟨0, by simp, (Option.some.inj h).symm, by simpa⟩
    · obtain ⟨i, hi, hv, he⟩ := leafFrom_eq_some h
      exact ⟨i + 1, by simpa using hi, by rw [hv]; congr 1; omega, by simpa using he⟩

/-- The scan answers nothing exactly when no entry is `(p, n)`. -/
theorem leafFrom_eq_none {p : Code} {n : Len} :
    ∀ {l : List RomEntry} {k : Nat}, leafFrom p n l k = none ↔ ∀ e ∈ l, e ≠ ⟨p, n⟩
  | [], _ => by simp [leafFrom]
  | e :: es, k => by
    simp only [leafFrom, entry_eq_iff]
    split
    · simp_all
    · simp_all [leafFrom_eq_none (l := es)]

/-- A leaf's entry is its node (R121). -/
theorem romRead_of_leafTest {T : CodeTable} {p : Code} {n : Len} {v : Symbol}
    (h : leafTest T p n = some v) : romRead T v = ⟨p, n⟩ := by
  obtain ⟨i, hi, rfl, he⟩ := leafFrom_eq_some h
  have hi' : i < 256 := by simpa using hi
  rw [romRead_eq_getElem]
  simpa [Nat.mod_eq_of_lt hi'] using he

/-- A node is no leaf exactly when no symbol's entry is it (R125). -/
theorem leafTest_eq_none {T : CodeTable} {p : Code} {n : Len} :
    leafTest T p n = none ↔ ∀ v, romRead T v ≠ ⟨p, n⟩ := by
  rw [leafTest, leafFrom_eq_none]
  constructor
  · intro h v; exact h _ (romRead_mem T v)
  · intro h e he; obtain ⟨v, rfl⟩ := exists_romRead_of_mem he; exact h v

/-! ### The construction -/

/-- Where the construction answers a trie (R122): every path of `k` further bits meets a code at or below its end. -/
theorem buildFrom_isSome_iff {T : CodeTable} (hr : ∀ v, rangeOk (romRead T v) = true) :
    ∀ (k : Nat) (p : Code) (n : Len), n.toNat + k = 32 → p.toNat < 2 ^ n.toNat →
      (∀ v, codeString (romRead T v) <+: bitstr p n.toNat → codeString (romRead T v) = bitstr p n.toNat) →
      ((buildFrom T k p n).isSome = true ↔
        ∀ x : BitString, x.length = k → ∃ v, codeString (romRead T v) <+: bitstr p n.toNat ++ x) := by
  have leaf_of_codeString : ∀ (v : Symbol) (p : Code) (n : Len), p.toNat < 2 ^ n.toNat →
      codeString (romRead T v) = bitstr p n.toNat → romRead T v = ⟨p, n⟩ := by
    intro v p n hp hv
    have hlen : (romRead T v).bits.toNat = n.toNat := by simpa using congrArg List.length hv
    have hrv := (rangeOk_iff _).mp (hr v)
    rw [hlen] at hrv
    rw [codeString, hlen] at hv
    have hc := bitstr_inj hrv hp hv
    have hb := BitVec.eq_of_toNat_eq hlen
    cases hrom : romRead T v
    simp_all
  have codeString_of_leaf : ∀ {v : Symbol} {p : Code} {n : Len}, leafTest T p n = some v →
      codeString (romRead T v) = bitstr p n.toNat := by
    intro v p n h; rw [romRead_of_leafTest h]; rfl
  intro k
  induction k with
  | zero =>
    intro p n hn hp hno
    cases hl : leafTest T p n with
    | some v =>
      simp only [buildFrom, hl, Option.map_some, Option.isSome_some, true_iff]
      intro x hx
      exact ⟨v, by rw [codeString_of_leaf hl]; exact List.prefix_append _ _⟩
    | none =>
      simp only [buildFrom, hl, Option.map_none, Option.isSome_none, Bool.false_eq_true, false_iff]
      intro h
      obtain ⟨v, hv⟩ := h [] rfl
      rw [List.append_nil] at hv
      exact leafTest_eq_none.mp hl v (leaf_of_codeString v p n hp (hno v hv))
  | succ k ih =>
    intro p n hn hp hno
    cases hl : leafTest T p n with
    | some v =>
      simp only [buildFrom, hl, Option.isSome_some, true_iff]
      intro x hx
      exact ⟨v, by rw [codeString_of_leaf hl]; exact List.prefix_append _ _⟩
    | none =>
      have hlt : n.toNat < 32 := by omega
      have hn1 : (n + 1#6).toNat = n.toNat + 1 := by
        rw [BitVec.toNat_add]; simp; omega
      have child : ∀ b : Bool,
          ((buildFrom T k (p <<< 1 ||| (if b then 1#32 else 0#32)) (n + 1#6)).isSome = true ↔
            ∀ x : BitString, x.length = k → ∃ v, codeString (romRead T v) <+: bitstr p n.toNat ++ b :: x) := by
        intro b
        have hstr := bitstr_extend p b hlt
        have := ih (p <<< 1 ||| (if b then 1#32 else 0#32)) (n + 1#6) (by omega)
          (by rw [hn1]; exact extend_lt b hlt hp)
          (by
            intro v hv
            rw [hn1, hstr] at hv ⊢
            rcases List.prefix_concat_iff.mp hv with he | hpre
            · exact he
            · exact absurd (leaf_of_codeString v p n hp (hno v hpre)) (leafTest_eq_none.mp hl v))
        rw [this, hn1, hstr]
        simp
      have hfalse := child false
      have htrue := child true
      simp only [Bool.false_eq_true, if_false, if_true] at hfalse htrue
      rw [show p <<< 1 ||| 0#32 = p <<< 1 from BitVec.or_zero] at hfalse
      have hsplit : (buildFrom T (k + 1) p n).isSome = true ↔
          (buildFrom T k (p <<< 1) (n + 1#6)).isSome = true ∧
            (buildFrom T k (p <<< 1 ||| 1#32) (n + 1#6)).isSome = true := by
        simp only [buildFrom, hl]
        cases buildFrom T k (p <<< 1) (n + 1#6) <;> cases buildFrom T k (p <<< 1 ||| 1#32) (n + 1#6) <;> simp
      rw [hsplit, hfalse, htrue]
      constructor
      · rintro ⟨h0, h1⟩ x hx
        cases x with
        | nil => simp at hx
        | cons b x =>
          have hx' : x.length = k := by simpa using hx
          cases b
          · exact h0 x hx'
          · exact h1 x hx'
      · intro h
        exact ⟨fun x hx => h (false :: x) (by simp [hx]), fun x hx => h (true :: x) (by simp [hx])⟩

/-! ### The reset-time check -/

/-- The check of R124 says R102, R103, R104 and R105 in their bit-string forms. -/
theorem tableOk_iff (T : CodeTable) :
    tableOk T = true ↔ LengthsLegal T ∧ CodesInRange T ∧ CodesPrefixFree T ∧ CodesComplete T := by
  have hroot : ∀ (_ : LengthsLegal T) (_ : CodesInRange T),
      (buildTrie T).isSome = true ↔ CodesComplete T := by
    intro hlen hran
    have h := buildFrom_isSome_iff (T := T) (fun v => (rangeOk_iff _).mpr (hran v)) 32 0#32 0#6 (by decide) (by decide)
      (by
        intro v hv
        have h0 : (codeString (romRead T v)).length ≤ 0 := by simpa using hv.length_le
        have := (hlen v).1
        rw [codeString_length] at h0
        omega)
    simpa [CodesComplete, buildTrie] using h
  have hpre : ∀ (_ : CodesInRange T), prefixFree T.toList = true ↔ CodesPrefixFree T := by
    intro hran
    rw [prefixFree_table_iff]
    refine forall_congr' fun u => forall_congr' fun v => imp_congr_right fun _ => ?_
    rw [← entryPrefix_iff ((rangeOk_iff _).mpr (hran u)) ((rangeOk_iff _).mpr (hran v))]
    simp
  have hlen : T.toList.all lengthOk = true ↔ LengthsLegal T := by
    rw [all_iff_romRead]; exact forall_congr' fun v => lengthOk_iff _
  have hran : T.toList.all rangeOk = true ↔ CodesInRange T := by
    rw [all_iff_romRead]; exact forall_congr' fun v => rangeOk_iff _
  simp only [tableOk, Bool.and_eq_true, hlen, hran, and_assoc]
  refine and_congr_right fun h1 => and_congr_right fun h2 => ?_
  rw [hpre h2, hroot h1 h2]

/-! ### Walking a table that passes the check -/

/-- A leaf is where a code is the path (R125). -/
theorem leafTest_eq_some_iff {T : CodeTable} (hT : tableOk T = true) {p : Code} {n : Len} {v : Symbol}
    (hp : p.toNat < 2 ^ n.toNat) :
    leafTest T p n = some v ↔ codeString (romRead T v) = bitstr p n.toNat := by
  obtain ⟨_, hran, hpf, _⟩ := (tableOk_iff T).mp hT
  constructor
  · intro h; rw [romRead_of_leafTest h]; rfl
  · intro h
    have hlen : (romRead T v).bits.toNat = n.toNat := by simpa using congrArg List.length h
    have hrv := hran v
    have hs := h
    rw [hlen] at hrv
    rw [codeString, hlen] at hs
    have hc := bitstr_inj hrv hp hs
    have hrom : romRead T v = ⟨p, n⟩ := by
      have hb := BitVec.eq_of_toNat_eq hlen
      cases hv : romRead T v
      simp_all
    cases hl : leafTest T p n with
    | none => exact absurd hrom (leafTest_eq_none.mp hl v)
    | some u =>
      by_cases huv : u = v
      · rw [huv]
      · exact absurd (by rw [romRead_of_leafTest hl, hrom]) (hpf u v huv)

/-- Below a node that is no leaf there is a node for each bit (R127): the trie never runs out of children. -/
theorem exists_code_through_child {T : CodeTable} (hT : tableOk T = true) {p : Code} {n : Len} (b : Bool)
    (hp : p.toNat < 2 ^ n.toNat) (hnode : ∃ v, bitstr p n.toNat <+: codeString (romRead T v))
    (hl : leafTest T p n = none) :
    n.toNat < 32 ∧ ∃ u, bitstr p n.toNat ++ [b] <+: codeString (romRead T u) := by
  obtain ⟨hlen, _, hpf, hco⟩ := (tableOk_iff T).mp hT
  obtain ⟨v, hv⟩ := hnode
  have hnotleaf : ∀ u, codeString (romRead T u) ≠ bitstr p n.toNat := by
    intro u hu
    rw [(leafTest_eq_some_iff hT hp).mpr hu] at hl
    cases hl
  have hlt : n.toNat < 32 := by
    have h1 : n.toNat ≤ (romRead T v).bits.toNat := by simpa using hv.length_le
    have h2 := (hlen v).2
    rcases Nat.lt_or_ge n.toNat 32 with h | h
    · exact h
    · exact absurd (hv.eq_of_length (by simp; omega)).symm (hnotleaf v)
  refine ⟨hlt, ?_⟩
  obtain ⟨u, hu⟩ := hco (bitstr p n.toNat ++ [b] ++ List.replicate (31 - n.toNat) false) (by simp; omega)
  refine ⟨u, ?_⟩
  rcases Nat.lt_or_ge n.toNat (romRead T u).bits.toNat with h | h
  · exact List.prefix_of_prefix_length_le (List.prefix_append _ _) hu (by simp; omega)
  · have hun : codeString (romRead T u) <+: bitstr p n.toNat := by
      refine List.prefix_of_prefix_length_le hu ?_ (by simpa using h)
      rw [List.append_assoc]
      exact List.prefix_append _ _
    have huv : u = v := by
      by_contra hne
      exact hpf u v hne (hun.trans hv)
    rw [huv] at hun
    exact absurd (List.IsPrefix.eq_of_length_le hun hv.length_le) (hnotleaf v)

/-! ### A table read off a trie -/

/-- Every leaf of the trie, at the path `(p, n)`, is an entry of the table. -/
def trieMatches (T : CodeTable) : Trie → Code → Len → Bool
  | .leaf v, p, n            => decide (romRead T v = ⟨p, n⟩)
  | .internal zero one, p, n =>
    trieMatches T zero (p <<< 1) (n + 1#6) && trieMatches T one (p <<< 1 ||| 1#32) (n + 1#6)

/-- A long enough string runs into a leaf. -/
theorem exists_leaf_on_path : ∀ (t : Trie) (x : BitString), trieDepth t ≤ x.length →
    ∃ y v, y <+: x ∧ trieNode t y = some (.leaf v)
  | .leaf v, x, _ => ⟨[], v, List.nil_prefix, rfl⟩
  | .internal zero one, [], h => by simp [trieDepth] at h
  | .internal zero one, b :: x, h => by
    simp only [trieDepth, List.length_cons, Nat.add_le_add_iff_right, max_le_iff] at h
    cases b
    · obtain ⟨y, v, hy, hn⟩ := exists_leaf_on_path zero x h.1
      exact ⟨false :: y, v, by simpa using hy, hn⟩
    · obtain ⟨y, v, hy, hn⟩ := exists_leaf_on_path one x h.2
      exact ⟨true :: y, v, by simpa using hy, hn⟩

/-- Nothing lies below a leaf. -/
theorem eq_of_prefix_of_leaf : ∀ (t : Trie) (x y : BitString) (u v : Symbol), x <+: y →
    trieNode t x = some (.leaf u) → trieNode t y = some (.leaf v) → u = v ∧ x = y
  | .leaf w, x, y, u, v, _, hx, hy => by
    cases x <;> cases y <;> simp_all [trieNode]
  | .internal zero one, [], y, u, v, _, hx, _ => by simp [trieNode] at hx
  | .internal zero one, b :: x, [], u, v, h, _, _ => by simp at h
  | .internal zero one, b :: x, c :: y, u, v, h, hx, hy => by
    obtain ⟨rfl, h'⟩ := List.cons_prefix_cons.mp h
    cases b
    · obtain ⟨h1, h2⟩ := eq_of_prefix_of_leaf zero x y u v h' hx hy
      exact ⟨h1, by rw [h2]⟩
    · obtain ⟨h1, h2⟩ := eq_of_prefix_of_leaf one x y u v h' hx hy
      exact ⟨h1, by rw [h2]⟩

/-- A leaf's path is its entry's code. -/
theorem codeString_of_trieMatches {T : CodeTable} : ∀ (t : Trie) (p : Code) (n : Len) (y : BitString) (v : Symbol),
    n.toNat + trieDepth t ≤ 32 → trieMatches T t p n = true → trieNode t y = some (.leaf v) →
    codeString (romRead T v) = bitstr p n.toNat ++ y
  | .leaf w, p, n, y, v, _, hm, hy => by
    cases y with
    | nil =>
      simp only [trieNode, Option.some.injEq, Trie.leaf.injEq] at hy
      subst hy
      rw [of_decide_eq_true hm, List.append_nil]; rfl
    | cons => simp [trieNode] at hy
  | .internal zero one, p, n, [], v, _, _, hy => by simp [trieNode] at hy
  | .internal zero one, p, n, b :: y, v, hd, hm, hy => by
    simp only [trieDepth] at hd
    simp only [trieMatches, Bool.and_eq_true] at hm
    have hlt : n.toNat < 32 := by omega
    have hn1 : (n + 1#6).toNat = n.toNat + 1 := by rw [BitVec.toNat_add]; simp; omega
    have hz := bitstr_extend p false hlt
    have ho := bitstr_extend p true hlt
    simp only [Bool.false_eq_true, if_false, if_true] at hz ho
    rw [show p <<< 1 ||| 0#32 = p <<< 1 from BitVec.or_zero] at hz
    cases b
    · rw [codeString_of_trieMatches zero _ (n + 1#6) y v (by omega) hm.1 hy, hn1, hz]; simp
    · rw [codeString_of_trieMatches one _ (n + 1#6) y v (by omega) hm.2 hy, hn1, ho]; simp

/-- Every entry of the list, counted from symbol `v`, leads to its own leaf. -/
def leadsToLeaf (t : Trie) : List RomEntry → Nat → Bool
  | [], _      => true
  | e :: es, v =>
    (match trieNode t (codeString e) with
      | some (.leaf u) => Nat.beq u.toNat v
      | _              => false) && leadsToLeaf t es (v + 1)

theorem leadsToLeaf_getElem {t : Trie} : ∀ {l : List RomEntry} {k : Nat}, leadsToLeaf t l k = true →
    ∀ i (h : i < l.length), ∃ u, trieNode t (codeString l[i]) = some (.leaf u) ∧ u.toNat = k + i
  | [], _, _, i, hi => by simp at hi
  | e :: es, k, h, i, hi => by
    simp only [leadsToLeaf, Bool.and_eq_true] at h
    cases i with
    | zero =>
      obtain ⟨h1, _⟩ := h
      split at h1
      · next u hu => exact ⟨u, hu, by simpa using h1⟩
      · simp at h1
    | succ i =>
      obtain ⟨u, hu, hn⟩ := leadsToLeaf_getElem h.2 i (by simpa using hi)
      exact ⟨u, hu, by omega⟩

/-- A table read off a trie of depth at most 32 passes the check: the check without its pairwise comparisons. -/
theorem tableOk_of_trie {T : CodeTable} (t : Trie) (hd : trieDepth t ≤ 32)
    (hlen : T.toList.all lengthOk = true) (hran : T.toList.all rangeOk = true)
    (hm : trieMatches T t 0#32 0#6 = true) (hall : leadsToLeaf t T.toList 0 = true) :
    tableOk T = true := by
  have hleaf : ∀ v, trieNode t (codeString (romRead T v)) = some (.leaf v) := by
    intro v
    obtain ⟨u, hu, hn⟩ := leadsToLeaf_getElem hall v.toNat (by simpa using v.isLt)
    rw [Nat.zero_add] at hn
    rw [romRead_eq_getElem, hu, BitVec.eq_of_toNat_eq hn]
  rw [all_iff_romRead] at hlen hran
  refine (tableOk_iff T).mpr ⟨fun v => (lengthOk_iff _).mp (hlen v), fun v => (rangeOk_iff _).mp (hran v), ?_, ?_⟩
  · intro u v huv h
    exact huv (eq_of_prefix_of_leaf t _ _ u v h (hleaf u) (hleaf v)).1
  · intro x hx
    obtain ⟨y, v, hy, hn⟩ := exists_leaf_on_path t x (by omega)
    refine ⟨v, ?_⟩
    rw [codeString_of_trieMatches t 0#32 0#6 y v (by simpa using hd) hm hn]
    simpa using hy

end Sys2Proof.Machine
end

