-- ==== Sys2Proof/Laws/Ops.lean ====
section
/-! SUPPORT. What each shared operation and each meaning can do, said once. -/

namespace Sys2Proof.Machine

/-! ### Ports -/

theorem sourceRead_empty {s : State} (h : s.src = []) : sourceRead s = none := by simp [sourceRead, h]

theorem sourceRead_bit {s : State} {b : Bool} {rest : BitString} (h : s.src = b :: rest) :
    sourceRead s = some (b, { s with src := rest }) := by simp [sourceRead, h]

/-! ### The decoder's micro-step (R151) -/

theorem decStep_leaf {s : State} {v : Symbol} (h : leafTest s.rom s.walkP s.walkN = some v) :
    decStep s = endWalk (setResult v s.walkP s.walkN s) := by simp [decStep, h]

theorem decStep_guard {s : State} (h : leafTest s.rom s.walkP s.walkN = none) (hn : s.walkN = 32#6) :
    decStep s = raiseFault .malformedTable s := by
  rw [hn] at h
  simp [decStep, h, hn]

theorem decStep_endOfStream {s : State} (h : leafTest s.rom s.walkP s.walkN = none) (hn : s.walkN ≠ 32#6)
    (hs : s.src = []) : decStep s = endWalk (setEndOfStream s) := by
  simp [decStep, h, hn, sourceRead_empty hs]

theorem decStep_bit {s : State} {b : Bool} {rest : BitString} (h : leafTest s.rom s.walkP s.walkN = none)
    (hn : s.walkN ≠ 32#6) (hs : s.src = b :: rest) : decStep s = advanceWalk b { s with src := rest } := by
  simp [decStep, h, hn, sourceRead_bit hs]

/-- The four outcomes of a micro-step. -/
theorem decStep_cases (s : State) :
    (∃ v, leafTest s.rom s.walkP s.walkN = some v ∧ decStep s = endWalk (setResult v s.walkP s.walkN s)) ∨
    (leafTest s.rom s.walkP s.walkN = none ∧ s.walkN = 32#6 ∧ decStep s = raiseFault .malformedTable s) ∨
    (leafTest s.rom s.walkP s.walkN = none ∧ s.walkN ≠ 32#6 ∧ s.src = [] ∧
      decStep s = endWalk (setEndOfStream s)) ∨
    (∃ b rest, leafTest s.rom s.walkP s.walkN = none ∧ s.walkN ≠ 32#6 ∧ s.src = b :: rest ∧
      decStep s = advanceWalk b { s with src := rest }) := by
  cases hl : leafTest s.rom s.walkP s.walkN with
  | some v => exact .inl ⟨v, rfl, decStep_leaf hl⟩
  | none =>
    by_cases hn : s.walkN = 32#6
    · exact .inr (.inl ⟨rfl, hn, decStep_guard hl hn⟩)
    · cases hs : s.src with
      | nil => exact .inr (.inr (.inl ⟨rfl, hn, rfl, decStep_endOfStream hl hn hs⟩))
      | cons b rest => exact .inr (.inr (.inr ⟨b, rest, rfl, hn, rfl, decStep_bit hl hn hs⟩))

/-! ### Acceptance (R200) -/

theorem acceptWord_legal {w : CmdWord} {i : Instr} (h : decodeCmd w = .ok i) (s : State) :
    acceptWord w s = exec i s := by simp [acceptWord, h]

theorem acceptWord_illegal {w : CmdWord} {e : DecodeError} (h : decodeCmd w = .error e) (s : State) :
    acceptWord w s = .next (raiseFault .illegalCommand s) := by simp [acceptWord, h]

/-- Every acceptance ends in one of these states: a command's, or that of a fault. -/
theorem acceptRequest_cases (r : HostRequest) (s : State) :
    (∃ i, acceptRequest r s = exec i s) ∨ (∃ f, f ≠ .noFault ∧ acceptRequest r s = .next (raiseFault f s)) := by
  have word : ∀ w, (∃ i, acceptWord w s = exec i s) ∨
      (∃ f, f ≠ .noFault ∧ acceptWord w s = .next (raiseFault f s)) := by
    intro w
    cases h : decodeCmd w with
    | ok i => exact .inl ⟨i, acceptWord_legal h s⟩
    | error e => exact .inr ⟨_, by decide, acceptWord_illegal h s⟩
  have int : ∀ c n, (∃ i, acceptInt c n s = exec i s) ∨
      (∃ f, f ≠ .noFault ∧ acceptInt c n s = .next (raiseFault f s)) := by
    intro c n
    cases h : intOperand c n with
    | some i => simpa only [acceptInt, h] using word (encodeCmd i)
    | none => exact .inr ⟨.domainViolation, by decide, by simp only [acceptInt, h]⟩
  cases r with
  | word w => exact word w
  | lookupInt n => exact int _ n
  | encodeInt n => exact int _ n

/-! ### The core's own step -/

theorem coreStep_held {s : State} (h : s.fault ≠ .noFault) : coreStep s = .next s := by simp [coreStep, h]

theorem coreStep_busy {s : State} (h : s.fault = .noFault) (hb : s.busy = true) :
    coreStep s = .next (decStep s) := by simp [coreStep, h, hb]

theorem coreStep_notReady {s : State} (h : s.fault = .noFault) (hb : s.busy = false) (hr : s.ready = false) :
    coreStep s = .next s := by simp [coreStep, h, hb, hr]

theorem coreStep_idle {s : State} (h : s.fault = .noFault) (hb : s.busy = false) (hr : s.ready = true)
    (hp : s.pending = []) : coreStep s = .next s := by simp [coreStep, h, hb, hr, hp]

theorem coreStep_accept {s : State} {r : HostRequest} {rest : List HostRequest} (h : s.fault = .noFault)
    (hb : s.busy = false) (hr : s.ready = true) (hp : s.pending = r :: rest) :
    coreStep s = acceptRequest r { s with pending := rest } := by simp [coreStep, h, hb, hr, hp]

/-- What a step of the core can be (00_scope.md R15): nothing, a micro-step, or an acceptance. -/
theorem coreStep_cases (s : State) :
    coreStep s = .next s ∨
    (s.fault = .noFault ∧ s.busy = true ∧ coreStep s = .next (decStep s)) ∨
    (∃ r rest, s.fault = .noFault ∧ s.busy = false ∧ s.ready = true ∧ s.pending = r :: rest ∧
      coreStep s = acceptRequest r { s with pending := rest }) := by
  by_cases hf : s.fault = .noFault
  · rcases Bool.eq_false_or_eq_true s.busy with hb | hb
    · exact .inr (.inl ⟨hf, hb, coreStep_busy hf hb⟩)
    · rcases Bool.eq_false_or_eq_true s.ready with hr | hr
      · rcases hp : s.pending with _ | ⟨r, rest⟩
        · exact .inl (coreStep_idle hf hb hr hp)
        · exact .inr (.inr ⟨r, rest, hf, hb, hr, rfl, coreStep_accept hf hb hr hp⟩)
      · exact .inl (coreStep_notReady hf hb hr)
  · exact .inl (coreStep_held hf)

theorem cmdReady_iff (s : State) :
    cmdReady s = true ↔ s.busy = false ∧ s.ready = true ∧ s.fault = .noFault := by
  simp [cmdReady, and_assoc]

/-! ### A reset and the port (R179) -/

theorem resetStep_notReady {s : State} (h : cmdReady s = false) : resetStep s = resetCore s := by
  simp [resetStep, h]

theorem resetStep_empty {s : State} (h : s.pending = []) : resetStep s = resetCore s := by
  cases s; cases h; simp [resetStep]

theorem resetStep_discards {s : State} {r : HostRequest} {rest : List HostRequest} (h : cmdReady s = true)
    (hp : s.pending = r :: rest) : resetStep s = resetCore { s with pending := rest } := by
  simp [resetStep, h, hp]

end Sys2Proof.Machine
end

