-- ==== Sys2Proof/Laws/PerInstr.lean ====
section
/-! SUPPORT. Statements made per command, as syntax: the fields of each command's word (30_encoding.md R80, R81). -/

namespace Sys2Proof.Laws

/-- The `OP` and `SYM` fields a command's word has (R81, R82, R84). -/
def opAndSym (i : Instr) : BitVec 4 × Symbol :=
  match i with
  | .lookup sym => (0x1, sym)
  | .encode sym => (0x2, sym)
  | .decode     => (0x3, 0x00)

/-- The word of a command has its `OP` and `SYM`, and `RSV = 0` (R83). -/
def Fields.Statement (i : Instr) : Prop :=
  opField (encodeCmd i) = (opAndSym i).1 ∧ rsvField (encodeCmd i) = 0x0#4 ∧ symField (encodeCmd i) = (opAndSym i).2

/-- The word `op << 12 | sym` has the fields `op`, 0 and `sym`. -/
theorem fields_of_word (op : BitVec 4) (sym : Symbol) :
    opField (op.setWidth 16 <<< 12 ||| sym.setWidth 16) = op ∧
    rsvField (op.setWidth 16 <<< 12 ||| sym.setWidth 16) = 0x0#4 ∧
    symField (op.setWidth 16 <<< 12 ||| sym.setWidth 16) = sym := by
  refine ⟨?_, ?_, ?_⟩ <;> apply BitVec.eq_of_getLsbD_eq <;> intro i hi
  · rw [opField, BitVec.getLsbD_extractLsb']
    interval_cases i <;> simp
  · rw [rsvField, BitVec.getLsbD_extractLsb']
    interval_cases i <;> simp
  · rw [symField, BitVec.getLsbD_extractLsb']
    interval_cases i <;> simp

theorem Fields.lookup (sym : Symbol) : Fields.Statement (.lookup sym) := fields_of_word 0x1#4 sym

theorem Fields.encode (sym : Symbol) : Fields.Statement (.encode sym) := fields_of_word 0x2#4 sym

theorem Fields.decode : Fields.Statement .decode := by
  refine ⟨?_, ?_, ?_⟩ <;> decide

end Sys2Proof.Laws
end

