-- ==== Sys2Proof/Laws/Step.lean ====
section
/-! SUPPORT. What one step can be, said once. -/

namespace Sys2Proof.Machine

theorem step_move {s : State} {m : HostMove} {rest : List HostMove} (h : s.hostMoves = m :: rest) :
    step s = hostStep m { s with hostMoves := rest } := by simp [step, h]

theorem step_alone {s : State} (h : s.hostMoves = []) (hf : s.fault = .noFault) : step s = coreStep s := by
  simp [step, h, lastStep, hf]

/-- A step that the host leaves to the core, of a core no fault holds, is the core's own step. -/
theorem step_of_coreRuns {s : State} {p : List HostRequest} {m : List HostMove} (h : CoreRuns s p m)
    (hf : s.fault = .noFault) : step s = coreStep { s with pending := p, hostMoves := m } := by
  rcases h with ⟨h, rfl, rfl⟩ | ⟨h, rfl⟩ | ⟨r, h, rfl⟩
  · rw [step_alone h hf, ← h]
  · rw [step_move h]; rfl
  · rw [step_move h]; rfl

theorem step_of_hostResets {s : State} {m : List HostMove} (h : HostResets s m) :
    ∃ p, step s = .next (resetCore { s with pending := p, hostMoves := m }) := by
  rcases h with h | ⟨r, h⟩
  · exact ⟨_, step_move h⟩
  · exact ⟨_, step_move h⟩

/-- A core held by a fault, with no move of the host left, stops: it has no next state. -/
theorem step_stops {s t : State} (h : s.hostMoves = []) (hf : s.fault ≠ .noFault) : step s ≠ .next t := by
  cases hc : s.fault <;> simp_all [step, lastStep]

/-- Whatever answers a next state: the core's own step where the host leaves it the step, a reset by the host, or a
change of an external bit string while the core is not busy. -/
theorem step_cases {s t : State} (h : step s = .next t) :
    (∃ p m, CoreRuns s p m ∧ coreStep { s with pending := p, hostMoves := m } = .next t) ∨
    (∃ p m, HostResets s m ∧ t = resetCore { s with pending := p, hostMoves := m }) ∨
    (s.busy = false ∧ ∃ x y m, t = { s with sink := x, src := y, hostMoves := m }) := by
  cases hm : s.hostMoves with
  | nil =>
    by_cases hf : s.fault = .noFault
    · rw [step_alone hm hf] at h
      exact .inl ⟨s.pending, [], .inl ⟨hm, rfl, rfl⟩, by rwa [← hm]⟩
    · exact absurd h (step_stops hm hf)
  | cons m rest =>
    rw [step_move hm] at h
    cases m with
    | tick => exact .inl ⟨s.pending, rest, .inr (.inl ⟨hm, rfl⟩), h⟩
    | present r => exact .inl ⟨s.pending ++ [r], rest, .inr (.inr ⟨r, hm, rfl⟩), h⟩
    | reset => cases h; exact .inr (.inl ⟨_, rest, .inl hm, rfl⟩)
    | presentAtReset r => cases h; exact .inr (.inl ⟨_, rest, .inr ⟨r, hm⟩, rfl⟩)
    | setSource bits =>
      cases hb : s.busy <;> simp only [hostStep, hb, if_true, if_false, Bool.false_eq_true] at h
      · cases h; exact .inr (.inr ⟨rfl, s.sink, bits, rest, by rw [← hb]⟩)
      · cases h
    | sourceFromSink =>
      cases hb : s.busy <;> simp only [hostStep, hb, if_true, if_false, Bool.false_eq_true] at h
      · cases h; exact .inr (.inr ⟨rfl, s.sink, s.sink, rest, by rw [← hb]⟩)
      · cases h
    | setSink bits =>
      cases hb : s.busy <;> simp only [hostStep, hb, if_true, if_false, Bool.false_eq_true] at h
      · cases h; exact .inr (.inr ⟨rfl, bits, s.src, rest, by rw [← hb]⟩)
      · cases h

end Sys2Proof.Machine
end

