-- ==== Sys2Proof/Laws/Run.lean ====
section
/-! SUPPORT. Runs of several steps, and the decoder's walk along the bits of the source (43_decoder.md R151, R152). -/

namespace Sys2Proof.Machine

theorem run_zero (s : State) : Host.Core.run Sys2Proof.core 0 s = .next s := rfl

theorem run_succ {s t : State} (h : step s = .next t) (k : Nat) :
    Host.Core.run Sys2Proof.core (k + 1) s = Host.Core.run Sys2Proof.core k t := by
  simp only [Host.Core.run, Sys2Proof.core, h]

theorem run_add {a b : Nat} {s t : State} (h : Host.Core.run Sys2Proof.core a s = .next t) :
    Host.Core.run Sys2Proof.core (a + b) s = Host.Core.run Sys2Proof.core b t := by
  induction a generalizing s with
  | zero => cases h; simp
  | succ a ih =>
    rw [Nat.add_right_comm]
    cases hs : step s with
    | next u => rw [run_succ hs] at h ⊢; exact ih h
    | fault r => simp [Host.Core.run, Sys2Proof.core, hs] at h
    | refused r => simp [Host.Core.run, Sys2Proof.core, hs] at h

/-- A length below the bound grows without wrapping. -/
theorem toNat_len_succ {n : Len} (h : n.toNat < 32) : (n + 1#6).toNat = n.toNat + 1 := by
  rw [BitVec.toNat_add]; simp; omega

/-- One bit taken extends the walk's path by it. -/
theorem walkPath_advance (b : Bool) {s : State} (h : s.walkN.toNat < 32) :
    walkPath (advanceWalk b s) = walkPath s ++ [b] := by
  simp only [walkPath, advanceWalk_walkP, advanceWalk_walkN]
  rw [toNat_len_succ h]
  exact bitstr_extend _ b h

/-- From a node, a walk reads the bits `x` while no code is a proper prefix of its path: it arrives at the node of the
longer path, and nothing but the walk and the source has changed. -/
theorem run_walk (x : BitString) : ∀ (s : State) (y : BitString), tableOk s.rom = true → s.fault = .noFault →
    s.busy = true → s.hostMoves = [] → s.walkP.toNat < 2 ^ s.walkN.toNat →
    (∃ v, walkPath s <+: codeString (romRead s.rom v)) → s.src = x ++ y →
    (∀ v, codeString (romRead s.rom v) <+: walkPath s ++ x → codeString (romRead s.rom v) = walkPath s ++ x) →
    ∃ p n, p.toNat < 2 ^ n.toNat ∧ bitstr p n.toNat = walkPath s ++ x ∧
      (∃ v, bitstr p n.toNat <+: codeString (romRead s.rom v)) ∧
      Host.Core.run Sys2Proof.core x.length s = .next { s with walkP := p, walkN := n, src := y } := by
  induction x with
  | nil =>
    intro s y _ _ _ _ hp hn hs _
    refine ⟨s.walkP, s.walkN, hp, by simp [walkPath], hn, ?_⟩
    have hsrc : s.src = y := by simpa using hs
    rw [← hsrc]; rfl
  | cons b x ih =>
    intro s y hT hf hb hm hp hn hs hno
    have hl : leafTest s.rom s.walkP s.walkN = none := by
      cases hl : leafTest s.rom s.walkP s.walkN with
      | none => rfl
      | some v =>
        have h1 := (leafTest_eq_some_iff hT hp).mp hl
        have h2 := hno v (by rw [h1]; exact List.prefix_append _ _)
        have h3 := congrArg List.length h2
        rw [h1] at h3
        simp [walkPath] at h3
    obtain ⟨hlt, hchild⟩ := exists_code_through_child hT b hp hn hl
    have hne : s.walkN ≠ 32#6 := by intro h; rw [h] at hlt; simp at hlt
    have hst : step s = .next (advanceWalk b { s with src := x ++ y }) := by
      rw [step_alone hm hf, coreStep_busy hf hb, decStep_bit hl hne hs]; rfl
    have hpath : walkPath (advanceWalk b { s with src := x ++ y }) = walkPath s ++ [b] :=
      walkPath_advance b (s := { s with src := x ++ y }) hlt
    obtain ⟨p, n, h1, h2, h3, h4⟩ := ih (advanceWalk b { s with src := x ++ y }) y hT hf hb hm
      (by simp only [advanceWalk_walkP, advanceWalk_walkN]; rw [toNat_len_succ hlt]; exact extend_lt b hlt hp)
      (by rw [hpath]; exact hchild) rfl
      (by intro v hv; rw [hpath] at hv ⊢; simpa using hno v (by simpa using hv))
    refine ⟨p, n, h1, by rw [h2, hpath]; simp, h3, ?_⟩
    rw [List.length_cons, run_succ hst, h4]; rfl

end Sys2Proof.Machine
end

