-- ==== Sys2Proof/Laws/Trie.lean ====
section
/-! SUPPORT. The built trie: its nodes, leaves and counts (41_trie.md R120, R121, R122). -/

namespace Sys2Proof.Machine

/-! ### Any trie -/

theorem trieNode_append (t : Trie) (x y : BitString) :
    trieNode t (x ++ y) = (trieNode t x).bind (fun u => trieNode u y) := by
  induction x generalizing t with
  | nil => cases t <;> simp [trieNode]
  | cons b x ih =>
    cases t with
    | leaf v => simp [trieNode]
    | internal zero one => cases b <;> simp [trieNode, ih]

/-- Every trie has a leaf. -/
theorem exists_leaf (t : Trie) : ∃ y v, trieNode t y = some (.leaf v) := by
  obtain ⟨y, v, _, h⟩ := exists_leaf_on_path t (List.replicate (trieDepth t) false) (by simp)
  exact ⟨y, v, h⟩

/-- A string that is no node runs through a leaf. -/
theorem exists_leaf_above (t : Trie) (x : BitString) (h : trieNode t x = none) :
    ∃ y v, y <+: x ∧ y ≠ x ∧ trieNode t y = some (.leaf v) := by
  induction t generalizing x with
  | leaf v =>
    cases x with
    | nil => simp [trieNode] at h
    | cons b x => exact ⟨[], v, by simp, by simp, rfl⟩
  | internal zero one hzero hone =>
    cases x with
    | nil => simp [trieNode] at h
    | cons b x =>
      cases b
      · obtain ⟨y, v, h1, h2, h3⟩ := hzero x h
        exact ⟨false :: y, v, by simpa using h1, by simpa using h2, h3⟩
      · obtain ⟨y, v, h1, h2, h3⟩ := hone x h
        exact ⟨true :: y, v, by simpa using h1, by simpa using h2, h3⟩

theorem mem_trieLeaves (t : Trie) (v : Symbol) : v ∈ trieLeaves t ↔ ∃ x, trieNode t x = some (.leaf v) := by
  induction t with
  | leaf w =>
    constructor
    · intro h
      simp [trieLeaves] at h
      exact ⟨[], by simp [trieNode, h]⟩
    · rintro ⟨x, h⟩
      cases x <;> simp [trieNode] at h
      simp [trieLeaves, h]
  | internal zero one hzero hone =>
    simp only [trieLeaves, List.mem_append, hzero, hone]
    constructor
    · rintro (⟨x, h⟩ | ⟨x, h⟩)
      · exact ⟨false :: x, h⟩
      · exact ⟨true :: x, h⟩
    · rintro ⟨x, h⟩
      cases x with
      | nil => simp [trieNode] at h
      | cons b x =>
        cases b
        · exact .inl ⟨x, h⟩
        · exact .inr ⟨x, h⟩

/-- A node's path is no longer than the trie is deep. -/
theorem length_le_trieDepth (t : Trie) (x : BitString) (u : Trie) (h : trieNode t x = some u) :
    x.length ≤ trieDepth t := by
  induction t generalizing x with
  | leaf => cases x <;> simp [trieNode] at h ⊢
  | internal zero one hzero hone =>
    cases x with
    | nil => simp
    | cons b x =>
      simp only [trieDepth, List.length_cons]
      cases b
      · have := hzero x h; omega
      · have := hone x h; omega

/-! ### The built trie -/

/-- What the construction built, one level at a time. -/
theorem buildFrom_cases {T : CodeTable} {k : Nat} {p : Code} {n : Len} {t : Trie}
    (h : buildFrom T k p n = some t) :
    (∃ v, leafTest T p n = some v ∧ t = .leaf v) ∨
    (∃ k' zero one, k = k' + 1 ∧ leafTest T p n = none ∧ buildFrom T k' (p <<< 1) (n + 1#6) = some zero ∧
      buildFrom T k' (p <<< 1 ||| 1#32) (n + 1#6) = some one ∧ t = .internal zero one) := by
  cases hl : leafTest T p n with
  | some v => cases k <;> simp [buildFrom, hl] at h <;> exact .inl ⟨v, rfl, h.symm⟩
  | none =>
    cases k with
    | zero => simp [buildFrom, hl] at h
    | succ k =>
      simp only [buildFrom, hl] at h
      split at h
      · cases h
      · next zero hzero =>
        split at h
        · cases h
        · next one hone => exact .inr ⟨k, zero, one, rfl, rfl, hzero, hone, (Option.some.inj h).symm⟩

theorem trieDepth_buildFrom_le {T : CodeTable} : ∀ (k : Nat) (p : Code) (n : Len) (t : Trie),
    buildFrom T k p n = some t → trieDepth t ≤ k := by
  intro k
  induction k with
  | zero =>
    intro p n t h
    obtain ⟨v, _, rfl⟩ | ⟨_, _, _, hk, _⟩ := buildFrom_cases h
    · simp [trieDepth]
    · simp at hk
  | succ k ih =>
    intro p n t h
    obtain ⟨v, _, rfl⟩ | ⟨k', zero, one, hk, _, hz, ho, rfl⟩ := buildFrom_cases h
    · simp [trieDepth]
    · cases hk
      have h1 := ih _ _ _ hz
      have h2 := ih _ _ _ ho
      simp only [trieDepth]
      omega

/-- Each leaf of the built trie is an entry of the table, at its path. -/
theorem trieMatches_buildFrom {T : CodeTable} : ∀ (k : Nat) (p : Code) (n : Len) (t : Trie),
    buildFrom T k p n = some t → trieMatches T t p n = true := by
  intro k
  induction k with
  | zero =>
    intro p n t h
    obtain ⟨v, hl, rfl⟩ | ⟨_, _, _, hk, _⟩ := buildFrom_cases h
    · simpa [trieMatches] using romRead_of_leafTest hl
    · simp at hk
  | succ k ih =>
    intro p n t h
    obtain ⟨v, hl, rfl⟩ | ⟨k', zero, one, hk, _, hz, ho, rfl⟩ := buildFrom_cases h
    · simpa [trieMatches] using romRead_of_leafTest hl
    · cases hk
      simp [trieMatches, ih _ _ _ hz, ih _ _ _ ho]

/-- A leaf of the built trie stands at its symbol's code. -/
theorem codeString_of_builtLeaf {T : CodeTable} {t : Trie} (h : buildTrie T = some t) {x : BitString} {v : Symbol}
    (hx : trieNode t x = some (.leaf v)) : codeString (romRead T v) = x := by
  have hd := trieDepth_buildFrom_le _ _ _ _ h
  simpa using codeString_of_trieMatches t 0#32 0#6 x v (by simpa [Config.maxBits] using hd)
    (trieMatches_buildFrom _ _ _ _ h) hx

end Sys2Proof.Machine
end

