-- ==== Sys2Proof/Tests/Slice0.lean ====
section
/-! SUPPORT. The model's own tests: expected results are those of spec/95_test_vectors.md and of the rules named in each
test's comment. -/

namespace Sys2Proof.Machine.Tests

open Sys2Proof Sys2Proof.Machine

/-! ### Two test tables

`synth8` is the table SYNTH8 of 95_test_vectors.md 2.5 (`code_v = v`, `bits_v = 8`). `refLike` has the pinned rows of
R107 and some complete rest: it is an admissible table, not the hardware's ROM. -/

def entriesFrom (f : Nat → RomEntry) : Nat → Nat → List RomEntry
  | 0, _     => []
  | k + 1, v => f v :: entriesFrom f k (v + 1)

@[simp] theorem entriesFrom_length (f : Nat → RomEntry) : ∀ k v, (entriesFrom f k v).length = k
  | 0, _     => rfl
  | k + 1, v => by simp [entriesFrom, entriesFrom_length f k]

def synth8List : List RomEntry := entriesFrom (fun v => ⟨BitVec.ofNat 32 v, 8⟩) 256 0

def synth8 : CodeTable := ⟨⟨synth8List⟩, entriesFrom_length ..⟩

/-- SYNTH8 with entry `v` replaced (95_test_vectors.md 2.5). -/
def synth8With (v : Symbol) (e : RomEntry) : CodeTable := synth8.set v.toNat e v.isLt

/-- A block of `k` consecutive codes of one length, the first of them `base`, for the symbols from `v` on. -/
def block (base bits k v : Nat) : List RomEntry :=
  entriesFrom (fun u => ⟨BitVec.ofNat 32 (base + (u - v)), BitVec.ofNat 6 bits⟩) k v

/-- `00`; `100`, `101`; the siblings of the path to `code_255`; blocks below `01`; `code_255`. -/
def refLikeList : List RomEntry :=
  [⟨0, 2⟩, ⟨4, 3⟩, ⟨5, 3⟩] ++
  (entriesFrom (fun v => ⟨BitVec.ofNat 32 ((0x623FE66 >>> (27 - v)) ^^^ 1), BitVec.ofNat 6 v⟩) 25 3 ++
  (block 0b0100000000 10 128 28 ++ (block 0b0110000000 10 64 156 ++ (block 0b0111000000 10 32 220 ++
  (block 0b0111100 7 2 252 ++ ([⟨0b011111, 6⟩] ++ [⟨0x623FE66, 27⟩]))))))

theorem refLikeList_length : refLikeList.length = 256 := by simp [refLikeList, block]

def refLike : CodeTable := ⟨⟨refLikeList⟩, refLikeList_length⟩

/-- The full trie of depth `k` with the symbols from `v` on. -/
def fullTrie : Nat → Nat → Trie
  | 0, v     => .leaf (BitVec.ofNat 8 v)
  | k + 1, v => .internal (fullTrie k v) (fullTrie k (v + 2 ^ k))

/-- The path `s` down to `last`, with a leaf at every sibling, for the symbols from `v` on. -/
def combTrie (last : Trie) : BitString → Nat → Trie
  | [], _         => last
  | false :: s, v => .internal (combTrie last s (v + 1)) (.leaf (BitVec.ofNat 8 v))
  | true :: s, v  => .internal (.leaf (BitVec.ofNat 8 v)) (combTrie last s (v + 1))

def refLikeTrie : Trie :=
  .internal
    (.internal (.leaf 0)
      (.internal (fullTrie 7 28) (.internal (fullTrie 6 156) (.internal (fullTrie 5 220)
        (.internal (fullTrie 1 252) (.leaf 254))))))
    (.internal (.internal (.leaf 1) (.leaf 2)) (combTrie (.leaf 255) (bitstr 0x623FE66 25) 3))

set_option maxRecDepth 20000
set_option Elab.async false

theorem test_synth8_passes_check : tableOk synth8 = true :=
  tableOk_of_trie (fullTrie 8 0) (by decide +kernel) (by decide +kernel) (by decide +kernel) (by decide +kernel)
    (by decide +kernel)

theorem test_refLike_passes_check : tableOk refLike = true :=
  tableOk_of_trie refLikeTrie (by decide +kernel) (by decide +kernel) (by decide +kernel) (by decide +kernel)
    (by decide +kernel)

/-- The premise of R108 can be met. -/
theorem test_refLike_admissible : AdmissibleTable refLike :=
  ⟨test_refLike_passes_check, by decide +kernel⟩

/-- The other properties of the check (95_test_vectors.md 2.5). -/
theorem test_check_refuses_length_0 : tableOk (synth8With 7 ⟨7, 0⟩) = false := by decide +kernel
theorem test_check_refuses_length_33 : tableOk (synth8With 0 ⟨0, 33⟩) = false := by decide +kernel
theorem test_check_refuses_high_bit : tableOk (synth8With 7 ⟨0x107, 8⟩) = false := by decide +kernel
theorem test_check_refuses_prefix : tableOk (synth8With 5 ⟨0b0000010, 7⟩) = false := by
  have hp : entryPrefix (romRead (synth8With 5 ⟨0b0000010, 7⟩) 5) (romRead (synth8With 5 ⟨0b0000010, 7⟩) 4) = true := by
    decide +kernel
  by_contra h
  have h := (tableOk_iff _).mp (by simpa using h)
  exact h.2.2.1 5 4 (by decide)
    ((entryPrefix_iff ((rangeOk_iff _).mpr (h.2.1 5)) ((rangeOk_iff _).mpr (h.2.1 4))).mp hp)
theorem test_check_refuses_duplicate : tableOk (synth8With 7 ⟨6, 8⟩) = false := by
  have he : romRead (synth8With 7 ⟨6, 8⟩) 6 = romRead (synth8With 7 ⟨6, 8⟩) 7 := by decide +kernel
  by_contra h
  exact ((tableOk_iff _).mp (by simpa using h)).2.2.1 6 7 (by decide) (by rw [show romRead (synth8With 7#8 ⟨6#32, 8#6⟩) 6 = romRead (synth8With 7#8 ⟨6#32, 8#6⟩) 7 from he])

/-- "no code is a prefix of `11111111 1...`" (95_test_vectors.md 2.5, R105). -/
theorem test_check_refuses_missing : tableOk (synth8With 255 ⟨0b111111110, 9⟩) = false := by
  have hnone : (synth8With 255 ⟨0b111111110, 9⟩).toList.all
      (fun e => !(codeString e).isPrefixOf (List.replicate 32 true)) = true := by decide +kernel
  by_contra h
  obtain ⟨v, hv⟩ := ((tableOk_iff _).mp (by simpa using h)).2.2.2 (List.replicate 32 true) (by simp)
  have := (all_iff_romRead _ _).mp hnone v
  rw [Bool.not_eq_true', ← Bool.not_eq_true, List.isPrefixOf_iff_prefix] at this
  exact this hv

/-! ### States to run from -/

/-- The core just after a reset, on the table `T`, with bits in the source and requests at the port. -/
def idle (T : CodeTable) (src : BitString) (pending : List HostRequest) (moves : List HostMove) : State where
  rom       := T
  ready     := true
  busy      := false
  resValid  := false
  eos       := false
  fault     := .noFault
  resSym    := 0
  resCode   := 0
  resBits   := 0
  walkP     := 0
  walkN     := 0
  sink      := []
  src       := src
  pending   := pending
  hostMoves := moves

/-- The decoder in a walk, at the node `(p, n)`. -/
def walking (T : CodeTable) (p : Code) (n : Len) (src : BitString) : State :=
  { idle T src [] [] with busy := true, walkP := p, walkN := n }

/-- The core held by a fault after a valid result. -/
def held (f : FaultCode) (moves : List HostMove) : State :=
  { idle refLike [] [.word 0x2000] moves with fault := f, resValid := true, resBits := 2 }

/-- A field of the state a step answers. -/
def after {α : Type} (o : Host.Outcome State Fault Refusal) (f : State → α) : Option α :=
  match o with
  | .next s    => some (f s)
  | .fault _   => none
  | .refused _ => none

/-- A core after a reset of a table that passes the check, and of one that fails it (R40). -/
theorem test_reset_status : statusWord (resetCore (idle synth8 [] [] [])) = 0x0002#16 := by
  have h : tableOk (idle synth8 [] [] []).rom = true := test_synth8_passes_check
  simp only [statusWord, resetCore_fault, resetCore_eos, resetCore_resValid, resetCore_ready, resetCore_busy, h]
  decide
theorem test_reset_status_malformed :
    statusWord (resetCore (idle (synth8With 7 ⟨7, 0⟩) [] [] [])) = 0x0010#16 := by
  have h : tableOk (idle (synth8With 7 ⟨7, 0⟩) [] [] []).rom = false := test_check_refuses_length_0
  simp only [statusWord, resetCore_fault, resetCore_eos, resetCore_resValid, resetCore_ready, resetCore_busy, h]
  decide

/-! ### Words (95_test_vectors.md 2.1; the bits from R80, R81) -/

theorem test_decode_lookup_word : decodeCmd 0b0001000001010101#16 = .ok (.lookup 0x55) := by decide
theorem test_decode_encode_word : decodeCmd 0b0010000011111111#16 = .ok (.encode 255) := by decide
theorem test_decode_decode_word : decodeCmd 0b0011000000000000#16 = .ok .decode := by decide
theorem test_decode_reserved_opcode : decodeCmd 0xF0FF#16 = .error .reservedOpcode := by decide
theorem test_decode_reserved_field : decodeCmd 0x1100#16 = .error .reservedField := by decide
theorem test_decode_operand : decodeCmd 0x3001#16 = .error .decodeOperand := by decide
theorem test_encode_words : encodeCmd (.encode 1) = 0x2001#16 ∧ encodeCmd (.encode 255) = 0x20FF#16 := by decide
theorem test_table_word : decodeTableWord 16 0x1005 = some (.lookup 5) ∧ decodeTableWord 16 0 = none := by decide

/-! ### WellFormed: an ill-formed line for each check (R88) -/

theorem test_refuses_missing_operand : (AsmLine.mk .lookup none).WellFormed = false ∧
    (AsmLine.mk .encode none).toInstr = .error .missingOperand := by decide
theorem test_refuses_out_of_range : (AsmLine.mk .encode (some 256)).WellFormed = false ∧
    (AsmLine.mk .lookup (some 300)).toInstr = .error .operandOutOfRange := by decide
theorem test_refuses_decode_operand : (AsmLine.mk .decode (some 0)).WellFormed = false ∧
    (AsmLine.mk .decode (some 0)).toInstr = .error .unexpectedOperand := by decide
theorem test_assembles_hex : assembleLine ['E', 'N', 'C', 'O', 'D', 'E', ' ', '0', 'x', 'F', 'f', ';', 'x'] =
    .ok (some 0x20FF#16) := by decide
theorem test_assembles_decimal : assembleLine ['L', 'O', 'O', 'K', 'U', 'P', ' ', ' ', '1', '0'] =
    .ok (some 0x100A#16) := by decide
theorem test_refuses_unknown : assembleLine ['N', 'O', 'P'] = .error .unknownMnemonic ∧
    assembleLine ['L', 'O', 'O', 'K', 'U', 'P', ' ', '0', 'x'] = .error .badOperand ∧
    assembleLine ['E', 'N', 'C', 'O', 'D', 'E', ' ', '1', ' ', '2'] = .error .extraText ∧
    assembleLine [' ', ';', 'a'] = .ok none := by decide

/-! ### The three commands (95_test_vectors.md 2.2 to 2.4) -/

theorem test_lookup_255 : after (step (idle refLike [] [.word 0x10FF] []))
    (fun s => (s.resSym, s.resCode, s.resBits, statusWord s, s.sink)) =
    some (0xFF#8, 0x0623FE66#32, 27#6, 0x0006#16, []) := by decide +kernel

/-- After an EndOfStream (`STATUS = 0x000A`), `LOOKUP 1` clears `EOS`. -/
theorem test_lookup_clears_eos : after (step { idle refLike [] [.word 0x1001] [] with eos := true })
    (fun s => (s.resCode, s.resBits, statusWord s)) = some (0x4#32, 3#6, 0x0006#16) := by decide +kernel

theorem test_encode_appends_msb_first : after (step (idle refLike [] [.word 0x20FF] []))
    (fun s => (s.sink, s.resBits, statusWord s)) =
    some ([true, true, false, false, false, true, false, false, false, true, true, true, true, true, true, true,
      true, true, false, false, true, true, false, false, true, true, false], 27#6, 0x0006#16) := by decide +kernel

/-- On the host-written sink `"1"`, `ENCODE 1` leaves `"1100"`. -/
theorem test_encode_onto_sink : after (step { idle refLike [true] [.word 0x2001] [] with sink := [true] })
    (fun s => (s.sink, s.src)) = some ([true, true, false, false], [true]) := by decide +kernel

theorem test_decode_accepted : after (step (idle refLike [true, false, false] [.word 0x3000] []))
    (fun s => (s.walkP, s.walkN, statusWord s, s.src)) =
    some (0#32, 0#6, 0x0003#16, [true, false, false]) := by decide +kernel

/-- Steps 3 and 4 of the micro-step trace on `"100"`, and the last of the trace on `"1"`. -/
theorem test_decode_reads_bit : after (step (walking refLike 2 2 [false])) (fun s => (s.walkP, s.walkN, s.src)) =
    some (4#32, 3#6, []) := by decide +kernel
theorem test_decode_leaf : after (step (walking refLike 4 3 [true]))
    (fun s => (s.resSym, s.resBits, s.walkN, s.src, statusWord s)) =
    some (1#8, 3#6, 0#6, [true], 0x0006#16) := by decide +kernel
theorem test_decode_end_of_stream : after (step (walking refLike 1 1 []))
    (fun s => (s.resBits, s.walkP, s.walkN, statusWord s)) =
    some (1#6, 0#32, 0#6, 0x000A#16) := by decide +kernel

/-- R155: at depth 32 on no leaf (a state no run reaches) the guard fires before the source is read. -/
theorem test_decode_depth_guard : after (step (walking synth8 0 32 [true])) (fun s => (s.src, statusWord s)) =
    some ([true], 0x0012#16) := by decide +kernel

/-! ### Faults, holds, resets and the host (95_test_vectors.md 2.7) -/

theorem test_illegal_keeps_result : after (step { idle refLike [] [.word 0x0000] [] with
      resValid := true, resBits := 2 }) (fun s => (statusWord s, s.resBits)) = some (0x0026#16, 2#6) := by
  decide +kernel
theorem test_domain_violation : after (step (idle refLike [] [.encodeInt 256] []))
    (fun s => (statusWord s, s.sink)) = some (0x0032#16, []) := by decide +kernel
theorem test_int_call_in_domain : after (step (idle refLike [] [.lookupInt 255] [])) (fun s => s.resBits) =
    some 27#6 := by decide +kernel
theorem test_fault_holds_word : after (step (held .illegalCommand [.present (.word 0x0000)]))
    (fun s => (statusWord s, s.pending, s.sink)) =
    some (0x0026#16, [.word 0x2000, .word 0x0000], []) := by decide +kernel
theorem test_busy_holds_word :
    after (step { walking refLike 0 0 [true] with hostMoves := [.present (.word 0x1000)] })
    (fun s => (s.pending, s.walkN, s.resValid)) = some ([.word 0x1000], 1#6, false) := by decide +kernel
theorem test_source_change_refused : ∃ r, step { walking refLike 0 0 [] with hostMoves := [.setSource [true]] } =
    .refused r ∧ r = .sourceChangedDuringDecode := ⟨_, rfl, rfl⟩
theorem test_source_from_sink : after (step { idle refLike [] [] [.sourceFromSink] with sink := [true, false] })
    (fun s => s.src) = some [true, false] := by decide +kernel
/-- The held word stays at the port over a reset. -/
theorem test_reset_keeps_held_word :
    after (step (held .illegalCommand [.reset])) (fun s => (s.pending, s.resBits, s.fault)) =
    some ([.word 0x2000], 0#6, .noFault) := by
  simp [step, hostStep, after, held, idle, cmdReady, test_refLike_passes_check]
/-- At a ready port a reset discards the word that would have been accepted in that step, and no other (R179, R200). -/
theorem test_reset_discards_ready_word :
    after (step (idle refLike [] [.word 0x2000, .word 0x1000] [.reset])) (fun s => (s.pending, s.sink, s.resValid)) =
    some ([.word 0x1000], [], false) := by
  simp [step, hostStep, after, idle, cmdReady]
/-- So it is with a word presented in the very step of the reset, behind a held one. -/
theorem test_reset_keeps_presented_word :
    after (step (idle refLike [] [.word 0x2000] [.presentAtReset (.word 0x1000)])) (fun s => (s.pending, s.sink)) =
    some ([.word 0x1000], []) := by
  simp [step, hostStep, presentAtReset, after, idle, cmdReady]
/-- A flush of the sink, or a reset, still to come does not stop a run from ending; a command does (R205). -/
theorem test_quiescent_without_commands : Quiescent (idle refLike [] [] [.tick, .setSink [], .reset]) = true ∧
    Quiescent (idle refLike [] [] [.tick, .present (.word 0x1000)]) = false := by decide
theorem test_host_reads : hostRead 0 (idle refLike [] [] []) = 0x0002#32 ∧
    hostRead 3 (held .illegalCommand []) = 2#32 := by decide +kernel

/-- A word placed for the next step runs as the first command after reset, whatever the open table holds. -/
theorem test_placed_words_run : (after (step (State.reset.withFetchWord 16 0x1005)) (fun s => s.resSym) = some 5#8) ∧
    (after (step (State.reset.withFetchWord 16 0x2005)) (fun s => s.resSym) = some 5#8) ∧
    (after (step (State.reset.withFetchWord 16 0x3000)) (fun s => s.busy) = some true) := by decide

/-! ### Witnesses: for each statement with hypotheses, a state and operands that meet them, for every clause -/

/-- The ready core of the statements about a DECODE, on an admissible table and any source. -/
def decodeAt (src : BitString) : State := idle refLike src [.word 0x3000#16] []

theorem witness_decodeAt (src : BitString) : AdmissibleTable (decodeAt src).rom ∧ tableOk (decodeAt src).rom = true ∧
    cmdReady (decodeAt src) = true ∧ (decodeAt src).pending = [.word 0x3000#16] ∧ (decodeAt src).hostMoves = [] ∧
    (decodeAt src).src = src :=
  ⟨test_refLike_admissible, test_refLike_passes_check, rfl, rfl, rfl, rfl⟩

theorem witness_LegalWordIsItsEncoding : decodeCmd 0x20FF#16 = .ok (.encode 255) := by decide

theorem witness_AssemblerChecks : 256 ≤ 256 := by decide

/-- At a ready port, with the request `r` oldest: alone behind no move, under a tick, and presented in that step. -/
theorem coreRuns_idle (r : HostRequest) : CoreRuns (idle refLike [] [r] []) [r] [] ∧
    CoreRuns (idle refLike [] [r] [.tick, .reset]) [r] [.reset] ∧ CoreRuns (idle refLike [] [] [.present r]) [r] [] :=
  ⟨.inl ⟨rfl, rfl, rfl⟩, .inr (.inl ⟨rfl, rfl⟩), .inr (.inr ⟨r, rfl, rfl⟩)⟩

/-- A port with one held request and another presented in the step (`coreRuns_idle` gives the other forms). -/
theorem witness_StepRunsDecoded :
    cmdReady (idle refLike [] [.word 0x10FF] [.present (.word 0x3000)]) = true ∧ decodeCmd 0x10FF = .ok (.lookup 255) ∧
    CoreRuns (idle refLike [] [.word 0x10FF] [.present (.word 0x3000)]) [.word 0x10FF, .word 0x3000] [] :=
  ⟨rfl, by decide, .inr (.inr ⟨_, rfl, rfl⟩)⟩

theorem witness_PlacedWordRuns : decodeTableWord 16 0x10FF = some (.lookup 255) := by decide

/-- Both words at both ends of the symbol range, and an illegal word of each `OP`. -/
theorem witness_LookupRule : cmdReady (idle refLike [] [.word (0x1000#16 ||| (255#8).setWidth 16)] []) = true ∧
    CoreRuns (idle refLike [] [.word (0x1000#16 ||| (255#8).setWidth 16)] [])
      [.word (0x1000#16 ||| (255#8).setWidth 16)] [] ∧
    opField 0x1100 = 0x1#4 ∧ rsvField 0x1100 ≠ 0x0#4 ∧ AdmissibleTable (idle refLike [] [] []).rom ∧
    (∃ t, exec (.lookup 255) (idle refLike [] [] []) = .next t) :=
  ⟨rfl, (coreRuns_idle _).1, by decide, by decide, test_refLike_admissible, ⟨_, rfl⟩⟩

theorem witness_EncodeRule : cmdReady (idle refLike [] [.word (0x2000#16 ||| (0#8).setWidth 16)] []) = true ∧
    CoreRuns (idle refLike [] [.word (0x2000#16 ||| (0#8).setWidth 16)] [])
      [.word (0x2000#16 ||| (0#8).setWidth 16)] [] ∧
    cmdReady (idle refLike [] [.word 0x2F01] []) = true ∧
    CoreRuns (idle refLike [] [.word 0x2F01] []) [.word 0x2F01] [] ∧ opField 0x2F01 = 0x2#4 ∧ rsvField 0x2F01 ≠ 0x0#4 ∧
    tableOk (idle refLike [] [] []).rom = true ∧ AdmissibleTable (idle refLike [] [] []).rom ∧
    (idle refLike [] [] []).sink = [] ∧ (∃ t, exec (.encode 1) (idle refLike [] [] []) = .next t) :=
  ⟨rfl, (coreRuns_idle _).1, rfl, (coreRuns_idle _).1, by decide, by decide, test_refLike_passes_check,
    test_refLike_admissible, rfl, ⟨_, rfl⟩⟩

theorem witness_DecodeAccepts : cmdReady (decodeAt [true]) = true ∧ CoreRuns (decodeAt [true]) [.word 0x3000#16] [] :=
  ⟨rfl, .inl ⟨rfl, rfl, rfl⟩⟩

theorem witness_CommandFrame : (∃ t, exec (.lookup 0) (decodeAt []) = .next t) ∧
    (∃ t, exec (.encode 255) (decodeAt []) = .next t) ∧ (∃ t, exec .decode (decodeAt []) = .next t) :=
  ⟨⟨_, rfl⟩, ⟨_, rfl⟩, ⟨_, rfl⟩⟩

/-- A walk in which the host has no move, ticks, and presents a request that the port puts behind a held one. -/
theorem coreRuns_walking (T : CodeTable) (p : Code) (n : Len) (src : BitString) :
    CoreRuns (walking T p n src) [] [] ∧
    CoreRuns { walking T p n src with hostMoves := [.tick, .tick] } [] [.tick] ∧
    CoreRuns { walking T p n src with pending := [.word 0x1000], hostMoves := [.present (.word 0x2000)] }
      [.word 0x1000, .word 0x2000] [] :=
  ⟨.inl ⟨rfl, rfl, rfl⟩, .inr (.inl ⟨rfl, rfl⟩), .inr (.inr ⟨_, rfl, rfl⟩)⟩

/-- With `coreRuns_walking`: a leaf; the depth guard; EndOfStream at the deepest internal depth, 31, and at the root; a bit read. -/
theorem witness_MicroStep : leafTest refLike 4 3 = some 1 ∧
    (leafTest synth8 0 32 = none ∧ (walking synth8 0 32 []).walkN = 32#6) ∧
    (leafTest synth8 0 31 = none ∧ (walking synth8 0 31 []).walkN ≠ 32#6 ∧ (walking synth8 0 31 []).src = []) ∧
    (leafTest refLike 0 0 = none ∧ (walking refLike 0 0 [true]).walkN ≠ 32#6 ∧
      (walking refLike 0 0 [true]).src = true :: []) := by decide +kernel

theorem witness_MicroStepFrame : (∃ t, step (walking refLike 0 0 [true]) = .next t) ∧
    CoreRuns (walking refLike 0 0 [true]) [] [] ∧
    leafTest (walking refLike 0 0 [true]).rom 0 0 = none ∧ (walking refLike 0 0 [true]).busy = true :=
  ⟨⟨_, rfl⟩, (coreRuns_walking ..).1, by decide +kernel, rfl⟩

/-- The longest and the shortest pinned code, with a rest. -/
theorem witness_DecodeSucceeds :
    (decodeAt (codeString (romRead refLike 255) ++ [false])).src =
      codeString (romRead (decodeAt []).rom 255) ++ [false] ∧
    (decodeAt (codeString (romRead refLike 0))).src = codeString (romRead (decodeAt []).rom 0) ++ [] :=
  ⟨rfl, (List.append_nil _).symm⟩

/-- No code of the table is a prefix of `x`, checked entry by entry. -/
theorem not_prefix_of_all {T : CodeTable} {x : BitString}
    (h : T.toList.all (fun e => !(codeString e).isPrefixOf x) = true) (v : Symbol) :
    ¬ codeString (romRead T v) <+: x := by
  have := (all_iff_romRead T _).mp h v
  rwa [Bool.not_eq_true', ← Bool.not_eq_true, List.isPrefixOf_iff_prefix] at this

theorem witness_WalkIsBitsRead : (decodeAt [true, false]).src = [true] ++ [false] ∧
    (∀ v, codeString (romRead refLike v) <+: [true] → codeString (romRead refLike v) = [true]) ∧
    codeString (romRead refLike 0) = [false, false] :=
  ⟨rfl, fun v hv => absurd hv (not_prefix_of_all (by decide +kernel) v), by decide +kernel⟩

theorem witness_DecodeEndOfStream :
    (∀ v, ¬ codeString (romRead (decodeAt [true]).rom v) <+: (decodeAt [true]).src) ∧
    (∀ v, ¬ codeString (romRead (decodeAt []).rom v) <+: (decodeAt []).src) :=
  ⟨not_prefix_of_all (by decide +kernel), not_prefix_of_all (by decide +kernel)⟩

theorem witness_RoundTrip :
    (decodeAt (bitstr (romRead refLike 1).code (romRead refLike 1).bits.toNat ++ [true])).src =
      bitstr (romRead refLike 1).code (romRead refLike 1).bits.toNat ++ [true] ∧
    (let s := idle refLike [] [] [.present (.word (encodeCmd (.encode 255))), .sourceFromSink,
        .present (.word (encodeCmd .decode))];
      cmdReady s = true ∧ s.pending = [] ∧ s.sink = [] ∧ tableOk s.rom = true) :=
  ⟨rfl, rfl, rfl, rfl, test_refLike_passes_check⟩

/-- A walk in progress that meets the invariant, at the node `"1"`, while the host ticks and presents. -/
theorem witness_DecodeTerminates :
    Inv { walking refLike 1 1 [false] with hostMoves := [.tick, .present (.word 0x3000)] } ∧
    (walking refLike 1 1 [false]).busy = true ∧
    ∀ m ∈ [HostMove.tick, .present (.word 0x3000)], m = .tick ∨ ∃ r, m = .present r := by
  refine ⟨⟨⟨fun _ => by decide, fun _ => ⟨1, ?_⟩, fun h => by simp [walking] at h⟩,
    ⟨?_, fun h => by simp [walking, idle] at h, fun h => absurd rfl h⟩,
    ⟨by simp [walking, idle], fun _ => ⟨rfl, rfl⟩, by decide, by decide⟩, fun h => by simp [walking, idle] at h⟩,
    rfl, by simp⟩
  · exact List.isPrefixOf_iff_prefix.mp (by decide +kernel)
  · exact test_refLike_passes_check.symm

theorem witness_StepKeepsInv :
    (let s : State := { walking refLike 1 1 [false] with hostMoves := [.tick, .present (.word 0x3000)] };
      Inv s ∧ ∃ t, step s = .next t) :=
  ⟨witness_DecodeTerminates.1, ⟨_, rfl⟩⟩

theorem witness_DepthGuardNeverFires :
    (let s : State := { walking refLike 1 1 [false] with hostMoves := [.tick, .present (.word 0x3000)] };
      Inv s ∧ CoreRuns s [] [.present (.word 0x3000)] ∧ (∃ t, step s = .next t) ∧ leafTest s.rom 1 1 = none) :=
  ⟨witness_DecodeTerminates.1, .inr (.inl ⟨rfl, rfl⟩), ⟨_, rfl⟩, by decide +kernel⟩

/-- The three commands of P1 (95_test_vectors.md 3). -/
theorem witness_EncodeSequence :
    (let s := idle refLike [] ([0, 1, 255].map (fun v => .word (encodeCmd (.encode v)))) [];
      cmdReady s = true ∧ s.hostMoves = [] ∧ s.pending = [0, 1, 255].map (fun v => .word (encodeCmd (.encode v)))) :=
  ⟨rfl, rfl, rfl⟩

/-- The first two commands of P2, on `"00100"` and a rest. -/
theorem witness_DecodeSequence :
    (let s := idle refLike (([0] ++ [1]).flatMap (fun u => codeString (romRead refLike u)) ++ [true])
        (([0] ++ [1]).map (fun _ => .word 0x3000#16)) [];
      tableOk s.rom = true ∧ cmdReady s = true ∧ s.hostMoves = []) :=
  ⟨test_refLike_passes_check, rfl, rfl⟩

/-- `witness_decodeAt` meets the hypotheses of each row; the two rows of `code_255` are strings of 26 and 27 bits. -/
theorem witness_DecodeCorners : (decodeAt []).src = [] ∧
    (decodeAt (bitstr 0x311FF33#32 26)).src = bitstr 0x311FF33#32 26 ∧
    (decodeAt (bitstr 0x623FE66#32 27)).src = bitstr 0x623FE66#32 27 := ⟨rfl, rfl, rfl⟩

theorem witness_RaiseFaultRule : (idle refLike [] [] []).fault = .noFault ∧
    (held .illegalCommand []).fault ≠ .noFault := by decide

theorem witness_BitOrder : 31 < 32 ∧ 0 < 1 := by decide

theorem witness_IllegalCommandRule : cmdReady (idle refLike [] [.word 0x0000] []) = true ∧
    decodeCmd 0x0000 = .error .reservedOpcode ∧ CoreRuns (idle refLike [] [.word 0x0000] []) [.word 0x0000] [] :=
  ⟨rfl, by decide, (coreRuns_idle _).1⟩

/-- The first value outside the domain, for both calls; the last value inside it; a word accepted while the code stands. -/
theorem witness_DomainViolationRule : cmdReady (idle refLike [] [.lookupInt 256] []) = true ∧
    cmdReady (idle refLike [] [.encodeInt 256] []) = true ∧
    cmdReady (idle refLike [] [.encodeInt (255#8).toNat] []) = true ∧
    cmdReady (idle refLike [] [.lookupInt (255#8).toNat] []) = true ∧
    (∀ r, CoreRuns (idle refLike [] [r] []) [r] []) ∧
    (∃ t, acceptWord 0x1000 (held .domainViolation []) = .next t ∧ t.fault = .domainViolation) :=
  ⟨rfl, rfl, rfl, rfl, fun r => (coreRuns_idle r).1, ⟨_, rfl, rfl⟩⟩

theorem witness_FaultSticky : (held .illegalCommand [.tick]).fault ≠ .noFault ∧
    (∃ t, step (held .illegalCommand [.tick]) = .next t) ∧ (∃ t, step (held .malformedTable [.reset]) = .next t) :=
  ⟨by decide, ⟨_, rfl⟩, ⟨_, rfl⟩⟩

theorem witness_HeldCoreStops : (held .malformedTable []).fault = .malformedTable ∧
    (held .illegalCommand []).fault = .illegalCommand ∧ (held .domainViolation []).fault = .domainViolation ∧
    (held .domainViolation []).hostMoves = [] := ⟨rfl, rfl, rfl, rfl⟩

theorem witness_ResetValues : tableOk (idle synth8 [] [] []).rom = true ∧
    tableOk (idle (synth8With 7 ⟨7, 0⟩) [] [] []).rom = false :=
  ⟨test_synth8_passes_check, test_check_refuses_length_0⟩

/-- A reset in the middle of a walk. -/
theorem witness_ResetKeepsExternal : ({ walking refLike 1 1 [true] with hostMoves := [.reset] } : State).hostMoves =
    .reset :: [] ∧ ({ walking refLike 1 1 [true] with hostMoves := [.reset] } : State).busy = true := ⟨rfl, rfl⟩

/-- A reset at a port held by a fault, at an empty port, and at a ready port that holds a request. -/
theorem witness_ResetPrecedence : cmdReady (held .illegalCommand [.reset]) = false ∧
    (idle refLike [] [] [.reset]).pending = [] ∧
    (let s := idle refLike [] [.word 0x2000, .word 0x1000] [.reset];
      cmdReady s = true ∧ s.pending = .word 0x2000 :: [.word 0x1000] ∧ s.hostMoves = .reset :: []) :=
  ⟨rfl, rfl, rfl, rfl, rfl⟩

/-- A request in the step of a reset: at a ready port, at a port held by a fault, and behind another. -/
theorem witness_RequestInResetStep :
    (let s := idle refLike [] [] [.presentAtReset (.word 0x1000)]; cmdReady s = true ∧ s.pending = []) ∧
    cmdReady (held .illegalCommand [.presentAtReset (.word 0x1000)]) = false ∧
    (let s := idle refLike [] [.word 0x2000] [.presentAtReset (.word 0x1000)];
      cmdReady s = true ∧ s.pending = .word 0x2000 :: []) :=
  ⟨⟨rfl, rfl⟩, rfl, ⟨rfl, rfl⟩⟩

/-- A port not ready for a walk, and for a fault. -/
theorem witness_RequestHeld :
    (let s : State := { walking refLike 0 0 [] with hostMoves := [.present (.word 0x1000)] };
      cmdReady s = false ∧ s.fault = .noFault ∧ s.busy = true) ∧
    cmdReady (held .illegalCommand [.present (.word 0x1000)]) = false ∧
    (held .illegalCommand [.present (.word 0x1000)]).fault ≠ .noFault := ⟨⟨rfl, rfl, rfl⟩, rfl, by decide⟩

theorem witness_HostStringMoves : (idle refLike [] [] [.setSource [true]]).busy = false ∧
    (idle refLike [] [] [.sourceFromSink]).busy = false ∧ (idle refLike [] [] [.setSink []]).busy = false ∧
    ({ walking refLike 0 0 [] with hostMoves := [.setSource [true]] } : State).busy = true ∧
    ({ walking refLike 0 0 [] with hostMoves := [.sourceFromSink] } : State).busy = true ∧
    ({ walking refLike 0 0 [] with hostMoves := [.setSink []] } : State).busy = true := ⟨rfl, rfl, rfl, rfl, rfl, rfl⟩

theorem witness_QuiescentStays : Quiescent (idle refLike [] [] []) = true ∧
    Quiescent (idle refLike [] [] [.tick, .setSink []]) = true := ⟨rfl, rfl⟩

theorem witness_RomNeverWritten : ∃ t, step (idle refLike [] [.word 0x2000] []) = .next t ∧
    t.ready = (idle refLike [] [.word 0x2000] []).ready := ⟨_, rfl, rfl⟩

theorem witness_ExternalStringsRule : ∃ t, coreStep (idle refLike [] [.word 0x2000] []) = .next t := ⟨_, rfl⟩

/-- A step that leaves `READY`, and a reset that sets it. -/
theorem witness_ReadyOnlyByReset : (∃ t, step (idle refLike [] [.word 0x2000] []) = .next t) ∧
    (∃ t, step (held .malformedTable [.reset]) = .next t) := ⟨⟨_, rfl⟩, ⟨_, rfl⟩⟩

theorem witness_BusyOnlyByDecode : (∃ t, coreStep (walking refLike 0 0 [true]) = .next t) ∧
    (∃ t, coreStep (decodeAt []) = .next t ∧ t.busy = true ∧ (decodeAt []).busy = false) :=
  ⟨⟨_, rfl⟩, ⟨_, rfl, rfl, rfl⟩⟩

theorem witness_AdmissibleLengths : AdmissibleTable refLike := test_refLike_admissible

theorem witness_KraftEquality : LengthsLegal synth8 ∧ CodesPrefixFree synth8 :=
  ⟨((tableOk_iff _).mp test_synth8_passes_check).1, ((tableOk_iff _).mp test_synth8_passes_check).2.2.1⟩

/-- A table that passes the check has a trie. -/
theorem exists_trie {T : CodeTable} (h : tableOk T = true) : ∃ trie, buildTrie T = some trie := by
  simp only [tableOk, Bool.and_eq_true] at h
  exact Option.isSome_iff_exists.mp h.2

/-- A node of the deepest level, 32, in range. -/
theorem witness_LeafTestIsTrieLeaf : tableOk synth8 = true ∧ (∃ trie, buildTrie synth8 = some trie) ∧
    (32#6).toNat ≤ 32 ∧ (0xFFFFFFFF#32).toNat < 2 ^ (32#6).toNat :=
  ⟨test_synth8_passes_check, exists_trie test_synth8_passes_check, by decide, by decide⟩

/-- A string of 32 bits. -/
theorem witness_NodeKinds : tableOk refLike = true ∧ (∃ trie, buildTrie refLike = some trie) ∧
    (List.replicate 32 true).length ≤ 32 :=
  ⟨test_refLike_passes_check, exists_trie test_refLike_passes_check, by decide⟩

theorem witness_TrieCounts : tableOk refLike = true ∧ (∃ trie, buildTrie refLike = some trie) ∧
    pinnedRows refLike = true :=
  ⟨test_refLike_passes_check, exists_trie test_refLike_passes_check, test_refLike_admissible.2⟩

/-- The table, its trie, and a proper prefix of `code_255`. -/
theorem witness_PinnedNodes : AdmissibleTable refLike ∧ (∃ trie, buildTrie refLike = some trie) ∧
    bitstr 0x311FF33#32 26 <+: bitstr 0x623FE66#32 27 ∧ bitstr 0x311FF33#32 26 ≠ bitstr 0x623FE66#32 27 :=
  ⟨test_refLike_admissible, exists_trie test_refLike_passes_check, by decide, by decide⟩

end Sys2Proof.Machine.Tests
end

section
/-! The bits of a bit string by position, and the order of R13 and R51. -/

namespace Sys2Proof.Machine

/-- Induction on the length: dropping the first bit lowers both the length and the index by one, which leaves the
position `n - 1 - i` as it is. -/
theorem bitstr_getElem? (c : Code) {n i : Nat} (hi : i < n) :
    (bitstr c n)[i]? = some (c.getLsbD (n - 1 - i)) := by
  induction n generalizing i with
  | zero => omega
  | succ n ih =>
    rw [bitstr_succ]
    cases i with
    | zero => simp
    | succ i =>
      have hpos : n + 1 - 1 - (i + 1) = n - 1 - i := by omega
      rw [List.getElem?_cons_succ, ih (by omega), hpos]

/-- Settles O22, from the length of a bit string and its bit at each index. -/
theorem bitOrder : Obligations.BitOrder := by
  unfold Obligations.BitOrder
  intro c n
  exact ⟨bitstr_length c n, fun _ hi => bitstr_getElem? c hi⟩

end Sys2Proof.Machine
end

section
/-! The legal words by their fields: what a word decodes to is fixed by its three fields (R85), and the fields fix the
word (R80), so a word that decodes to a command is that command's word (R86). -/

namespace Sys2Proof.Machine
open Sys2Proof.Laws

theorem fields_encodeCmd (i : Instr) : Fields.Statement i := by
  cases i with
  | lookup sym => exact Fields.lookup sym
  | encode sym => exact Fields.encode sym
  | decode => exact Fields.decode

theorem decodeCmd_eq_ok_iff (w : CmdWord) (i : Instr) :
    decodeCmd w = .ok i ↔ opField w = (opAndSym i).1 ∧ rsvField w = 0x0#4 ∧ symField w = (opAndSym i).2 := by
  constructor
  · intro h
    unfold decodeCmd at h
    split_ifs at h with hr ho ho ho hs
    all_goals cases h; simp_all [opAndSym]
  · rintro ⟨ho, hr, hs⟩
    cases i <;> simp_all [decodeCmd, opAndSym]

/-- The three fields cover the word (R80). -/
theorem cmdWord_ext {w w' : CmdWord} (ho : opField w = opField w') (hr : rsvField w = rsvField w')
    (hs : symField w = symField w') : w = w' := by
  simp only [opField, rsvField, symField, ← BitVec.toNat_inj, BitVec.extractLsb'_toNat, Nat.shiftRight_eq_div_pow]
    at ho hr hs ⊢
  omega

theorem decodeCmd_encodeCmd (i : Instr) : decodeCmd (encodeCmd i) = .ok i :=
  (decodeCmd_eq_ok_iff _ i).mpr (fields_encodeCmd i)

theorem encodeCmd_of_decodeCmd {w : CmdWord} {i : Instr} (h : decodeCmd w = .ok i) : encodeCmd i = w := by
  obtain ⟨ho, hr, hs⟩ := (decodeCmd_eq_ok_iff w i).mp h
  obtain ⟨ho', hr', hs'⟩ := fields_encodeCmd i
  exact cmdWord_ext (ho'.trans ho.symm) (hr'.trans hr.symm) (hs'.trans hs.symm)

end Sys2Proof.Machine
end

section
/-! What an acceptance and a step of the core can answer, by next state (R200, R111, R140, R150). -/

namespace Sys2Proof.Machine

/-- The state each command leaves: a result, a result with its code appended to the sink, or a walk begun. -/
theorem exec_next_cases {i : Instr} {s t : State} (h : exec i s = .next t) :
    (∃ v, t = setResult v (romRead s.rom v).code (romRead s.rom v).bits (clearFlags s)) ∨
    (∃ v, t = setResult v (romRead s.rom v).code (romRead s.rom v).bits
      (sinkAppend (romRead s.rom v).bits (romRead s.rom v).code (clearFlags s))) ∨
    (i = .decode ∧ t = startWalk (clearFlags s)) := by
  cases i with
  | lookup v => cases h; exact .inl ⟨v, rfl⟩
  | encode v => cases h; exact .inr (.inl ⟨v, rfl⟩)
  | decode => cases h; exact .inr (.inr ⟨rfl, rfl⟩)

/-- `coreStep_cases` by next state: nothing, a micro-step, a command, or a fault at acceptance. -/
theorem coreStep_next_cases {s t : State} (h : coreStep s = .next t) :
    t = s ∨
    (s.fault = .noFault ∧ s.busy = true ∧ t = decStep s) ∨
    (∃ r rest, s.fault = .noFault ∧ s.busy = false ∧ s.ready = true ∧ s.pending = r :: rest ∧
      acceptRequest r { s with pending := rest } = .next t ∧
      ((∃ i, exec i { s with pending := rest } = .next t) ∨
        ∃ f, f ≠ .noFault ∧ t = raiseFault f { s with pending := rest })) := by
  rcases coreStep_cases s with hc | ⟨hf, hb, hc⟩ | ⟨r, rest, hf, hb, hr, hp, hc⟩ <;> rw [hc] at h
  · cases h; exact .inl rfl
  · cases h; exact .inr (.inl ⟨hf, hb, rfl⟩)
  · refine .inr (.inr ⟨r, rest, hf, hb, hr, hp, h, ?_⟩)
    rcases acceptRequest_cases r { s with pending := rest } with ⟨i, hi⟩ | ⟨f, hne, hi⟩ <;> rw [hi] at h
    · exact .inl ⟨i, h⟩
    · cases h; exact .inr ⟨f, hne, rfl⟩

end Sys2Proof.Machine
end

section
/-! What no step of the core writes: the ROM and `READY` (R29, R33), and of the two external strings it only adds to the
end of `SINK` and takes the front of `SRC` (R35). -/

namespace Sys2Proof.Machine

/-- What a step of the core from `s` to `t` keeps, whichever step it is. -/
structure CoreFrame (s t : State) : Prop where
  rom   : t.rom = s.rom
  ready : t.ready = s.ready
  sink  : s.sink <+: t.sink
  src   : t.src = s.src ∨ ∃ b, s.src = b :: t.src

theorem CoreFrame.refl (s : State) : CoreFrame s s := ⟨rfl, rfl, List.prefix_rfl, .inl rfl⟩

theorem coreFrame_decStep (s : State) : CoreFrame s (decStep s) := by
  rcases decStep_cases s with ⟨v, _, hd⟩ | ⟨_, _, hd⟩ | ⟨_, _, _, hd⟩ | ⟨b, rest, _, _, hs, hd⟩ <;> rw [hd]
  · exact ⟨rfl, rfl, List.prefix_rfl, .inl rfl⟩
  · exact ⟨rfl, rfl, List.prefix_rfl, .inl rfl⟩
  · exact ⟨rfl, rfl, List.prefix_rfl, .inl rfl⟩
  · exact ⟨rfl, rfl, List.prefix_rfl, .inr ⟨b, hs⟩⟩

theorem coreFrame_exec {i : Instr} {s t : State} (h : exec i s = .next t) : CoreFrame s t := by
  rcases exec_next_cases h with ⟨v, rfl⟩ | ⟨v, rfl⟩ | ⟨_, rfl⟩
  · exact ⟨rfl, rfl, List.prefix_rfl, .inl rfl⟩
  · exact ⟨rfl, rfl, List.prefix_append _ _, .inl rfl⟩
  · exact ⟨rfl, rfl, List.prefix_rfl, .inl rfl⟩

theorem coreFrame_coreStep {s t : State} (h : coreStep s = .next t) : CoreFrame s t := by
  rcases coreStep_next_cases h with rfl | ⟨_, _, rfl⟩ | ⟨r, rest, _, _, _, _, _, ⟨i, hi⟩ | ⟨f, _, rfl⟩⟩
  · exact CoreFrame.refl _
  · exact coreFrame_decStep s
  · obtain ⟨hrom, hready, hsink, hsrc⟩ := coreFrame_exec hi
    exact ⟨hrom, hready, hsink, hsrc⟩
  · exact ⟨rfl, rfl, List.prefix_rfl, .inl rfl⟩

/-- `READY` has no writer but the reset that the host takes, and the ROM has none. -/
theorem step_rom_ready {s t : State} (h : step s = .next t) :
    t.rom = s.rom ∧
    (t.ready = s.ready ∨
      ((∃ p m, HostResets s m ∧ t = resetCore { s with pending := p, hostMoves := m }) ∧
        t.ready = tableOk s.rom)) := by
  rcases step_cases h with ⟨p, m, _, hc⟩ | ⟨p, m, hm, rfl⟩ | ⟨_, x, y, m, rfl⟩
  · exact ⟨(coreFrame_coreStep hc).rom, .inl (coreFrame_coreStep hc).ready⟩
  · exact ⟨resetCore_rom _, .inr ⟨⟨p, m, hm, rfl⟩, resetCore_ready _⟩⟩
  · exact ⟨rfl, .inl rfl⟩

/-- Settles O40: the trie is a function of the ROM and `READY` (R34). -/
theorem romNeverWritten : Obligations.RomNeverWritten := by
  unfold Obligations.RomNeverWritten
  intro s t h
  obtain ⟨hrom, _⟩ := step_rom_ready h
  exact ⟨hrom, fun hready => by simp only [trieOf, hrom, hready]⟩

/-- Settles O41, from the frame of the core's step. -/
theorem externalStringsRule : Obligations.ExternalStringsRule := by
  unfold Obligations.ExternalStringsRule
  exact ⟨fun _ _ h => ⟨(coreFrame_coreStep h).sink, (coreFrame_coreStep h).src⟩,
    fun s => ⟨resetCore_sink s, resetCore_src s⟩⟩

/-- Settles O42, from what a step can do to `READY`. -/
theorem readyOnlyByReset : Obligations.ReadyOnlyByReset := by
  unfold Obligations.ReadyOnlyByReset
  exact fun _ _ h => (step_rom_ready h).2

end Sys2Proof.Machine
end

section
/-! Which request makes the core busy (R32, R60): only the command word 0x3000, never a call with an integer. -/

namespace Sys2Proof.Machine

theorem decode_of_exec_busy {i : Instr} {s t : State} (h : exec i s = .next t) (hs : s.busy = false)
    (ht : t.busy = true) : i = .decode := by
  rcases exec_next_cases h with ⟨v, rfl⟩ | ⟨v, rfl⟩ | ⟨hi, _⟩
  · simp [hs] at ht
  · simp [hs] at ht
  · exact hi

theorem decodeCmd_of_acceptWord_busy {w : CmdWord} {s t : State} (h : acceptWord w s = .next t)
    (hs : s.busy = false) (ht : t.busy = true) : decodeCmd w = .ok .decode := by
  cases hd : decodeCmd w with
  | ok i =>
    rw [acceptWord_legal hd] at h
    rw [decode_of_exec_busy h hs ht]
  | error e =>
    rw [acceptWord_illegal hd] at h
    cases h
    simp at ht

/-- An integer call has the command it is made for, which is DECODE for no interface. -/
theorem decode_of_acceptInt_busy {command : Symbol → Instr} {n : Nat} {s t : State}
    (h : acceptInt command n s = .next t) (hs : s.busy = false) (ht : t.busy = true) :
    ∃ v, command v = .decode := by
  unfold acceptInt intOperand at h
  cases hv : symbolOfNat n with
  | some v =>
    rw [hv] at h
    have hd := decodeCmd_of_acceptWord_busy h hs ht
    rw [decodeCmd_encodeCmd] at hd
    exact ⟨v, Except.ok.inj hd⟩
  | none =>
    rw [hv] at h
    cases h
    simp at ht

theorem word_of_acceptRequest_busy {r : HostRequest} {s t : State} (h : acceptRequest r s = .next t)
    (hs : s.busy = false) (ht : t.busy = true) : r = .word 0x3000#16 := by
  cases r with
  | word w => rw [← encodeCmd_of_decodeCmd (decodeCmd_of_acceptWord_busy h hs ht), encodeCmd]
  | lookupInt n =>
    obtain ⟨v, hv⟩ := decode_of_acceptInt_busy h hs ht
    cases hv
  | encodeInt n =>
    obtain ⟨v, hv⟩ := decode_of_acceptInt_busy h hs ht
    cases hv

theorem decStep_pending (s : State) : (decStep s).pending = s.pending := by
  rcases decStep_cases s with ⟨v, _, hd⟩ | ⟨_, _, hd⟩ | ⟨_, _, _, hd⟩ | ⟨b, rest, _, _, _, hd⟩ <;> rw [hd] <;> rfl

theorem exec_pending {i : Instr} {s t : State} (h : exec i s = .next t) : t.pending = s.pending := by
  rcases exec_next_cases h with ⟨v, rfl⟩ | ⟨v, rfl⟩ | ⟨_, rfl⟩ <;> rfl

/-- Settles O43, by the cases of the core's step. -/
theorem busyOnlyByDecode : Obligations.BusyOnlyByDecode := by
  unfold Obligations.BusyOnlyByDecode
  intro s t h
  rcases coreStep_next_cases h with rfl | ⟨_, hb, rfl⟩ | ⟨r, rest, hf, hb, hr, hp, ha, hx⟩
  · exact ⟨fun _ => rfl, fun hb ht => absurd (hb.symm.trans ht) (by decide)⟩
  · exact ⟨fun _ => decStep_pending s, fun hb' => absurd (hb.symm.trans hb') (by decide)⟩
  · refine ⟨fun hb' => absurd (hb.symm.trans hb') (by decide), fun _ ht => ⟨rest, ?_, ?_, ?_⟩⟩
    · rw [hp, word_of_acceptRequest_busy ha hb ht]
    · rcases hx with ⟨i, hi⟩ | ⟨f, _, rfl⟩
      · exact exec_pending hi
      · rfl
    · exact (cmdReady_iff s).mpr ⟨hb, hr, hf⟩

end Sys2Proof.Machine
end

section
/-! The registers a host sees: the bits of `STATUS` (R24), the four reads (R23, R25), and what a reset leaves (R40). -/

namespace Sys2Proof.Machine

theorem flagWord_eq (b : Bool) : flagWord b = (BitVec.ofBool b).setWidth 16 := by cases b <;> rfl

@[simp] theorem flagWord_getElem (b : Bool) {i : Nat} (hi : i < 16) : (flagWord b)[i] = (b && decide (i = 0)) := by
  cases b <;> cases i <;> simp [flagWord]

theorem faultBits_le (f : FaultCode) : (faultBits f).toNat ≤ 3 := by cases f <;> decide

/-- Above the four flags `STATUS` is the fault code, zero-extended. -/
theorem statusWord_getLsbD_high (s : State) {i : Nat} (hi : 4 ≤ i) (hi' : i < 16) :
    (statusWord s).getLsbD i = (faultBits s.fault).getLsbD (i - 4) := by
  have h0 : ¬ i = 0 := by omega
  have h1 : ¬ i - 1 = 0 := by omega
  have h2 : ¬ i - 2 = 0 := by omega
  have h3 : ¬ i - 3 = 0 := by omega
  have h4 : ¬ i < 4 := by omega
  simp [statusWord, hi', h0, h1, h2, h3, h4]

/-- Settles O38, from the bits of `STATUS` by position. -/
theorem statusLayout : Obligations.StatusLayout := by
  unfold Obligations.StatusLayout
  intro s
  refine ⟨by simp [statusWord], by simp [statusWord], by simp [statusWord], by simp [statusWord], ?_, ?_,
    faultBits_le _, by simp only [statusWord, flagWord_eq]⟩
  · apply BitVec.eq_of_getLsbD_eq
    intro i hi
    simp [hi, statusWord_getLsbD_high s (i := 4 + i) (by omega) (by omega)]
  · apply BitVec.eq_of_getLsbD_eq
    intro i hi
    have hw : 4 ≤ 8 + i - 4 := by omega
    simp [hi, statusWord_getLsbD_high s (i := 8 + i) (by omega) (by omega),
      BitVec.getLsbD_of_ge _ _ hw]

/-- Settles O39: each register is at most as wide as the read, so zero extension keeps its number. -/
theorem hostReads : Obligations.HostReads := by
  unfold Obligations.HostReads
  intro s
  have hstatus : hostRead 0#2 s = (statusWord s).setWidth 32 := rfl
  have hsym : hostRead 1#2 s = s.resSym.setWidth 32 := rfl
  have hcode : hostRead 2#2 s = s.resCode := rfl
  have hbits : hostRead 3#2 s = s.resBits.setWidth 32 := rfl
  rw [hstatus, hsym, hcode, hbits]
  exact ⟨BitVec.toNat_setWidth_of_le (by decide), BitVec.toNat_setWidth_of_le (by decide), rfl,
    BitVec.toNat_setWidth_of_le (by decide)⟩

theorem exists_buildTrie {T : CodeTable} (h : tableOk T = true) : ∃ trie, buildTrie T = some trie := by
  simp only [tableOk, Bool.and_eq_true] at h
  exact Option.isSome_iff_exists.mp h.2

theorem statusWord_resetCore (s : State) :
    statusWord (resetCore s) = if tableOk s.rom then 0x0002#16 else 0x0010#16 := by
  cases h : tableOk s.rom <;> simp [statusWord, h, flagWord, faultBits]

/-- Settles O29, field by field from the lemmas of `resetCore`, for a table that passes the check and one that fails. -/
theorem resetValues : Obligations.ResetValues := by
  unfold Obligations.ResetValues
  intro s
  refine ⟨resetCore_rom s, resetCore_busy s, resetCore_resValid s, resetCore_eos s, resetCore_resSym s,
    resetCore_resCode s, resetCore_resBits s, resetCore_walkP s, resetCore_walkN s, resetCore_sink s, resetCore_src s,
    fun hT => ?_, fun hT => ?_⟩
  · obtain ⟨trie, htrie⟩ := exists_buildTrie hT
    exact ⟨by simp [hT], by simp [hT], by simp [statusWord_resetCore, hT], trie, htrie, by simp [trieOf, hT, htrie]⟩
  · exact ⟨by simp [hT], by simp [hT], by simp [statusWord_resetCore, hT], by simp [trieOf, hT]⟩

end Sys2Proof.Machine
end

section
/-! The invariant of the core: a reset establishes it, and each named operation keeps it where the core uses it. -/

namespace Sys2Proof.Machine

/-! ### The invariant after a reset -/

theorem WalkInv.of_atRoot {s : State} (hp : s.walkP = 0#32) (hn : s.walkN = 0#6) : WalkInv s where
  inRange := fun _ => by simp [hp, hn]
  isNode := fun _ => ⟨0#8, by simp [walkPath, hn]⟩
  atRoot := fun _ => ⟨hp, hn⟩

theorem inv_resetCore (s : State) : Inv (resetCore s) where
  walk := .of_atRoot (resetCore_walkP s) (resetCore_walkN s)
  ready := ⟨by simp, fun h => by simp [(resetCore_ready s).symm.trans h], fun _ => resetCore_busy s⟩
  flags := ⟨by simp, by simp, by simp, by simp⟩
  result := fun h => by simp at h

theorem resetCore_reset : resetCore State.reset = State.reset := by
  cases h : tableOk Config.codeTable <;> simp [resetCore, trieInit, State.reset, h]

/-- Settles O44: the state after reset is the reset of itself. -/
theorem invAtReset : Obligations.InvAtReset := by
  unfold Obligations.InvAtReset
  exact ⟨resetCore_reset ▸ inv_resetCore State.reset, inv_resetCore⟩

/-! ### What the invariant says of a core that no fault holds -/

theorem ReadyInv.ready_of_noFault {s : State} (h : ReadyInv s) (hf : s.fault = .noFault) : s.ready = true := by
  by_contra hr
  have hm := h.notReady (by simpa using hr)
  rw [hf] at hm
  cases hm

theorem Inv.romRead_bits_le {s : State} (h : Inv s) (hr : s.ready = true) (v : Symbol) :
    (romRead s.rom v).bits.toNat ≤ 32 := by
  obtain ⟨hlen, _⟩ := (tableOk_iff s.rom).mp (h.ready.ready ▸ hr)
  exact (hlen v).2

/-- A walk that is at no leaf is above depth 32, and has a child on each branch (R155, R105). -/
theorem Inv.child_of_notLeaf {s : State} (h : Inv s) (hr : s.ready = true) (hl : leafTest s.rom s.walkP s.walkN = none)
    (b : Bool) : s.walkN.toNat < 32 ∧ ∃ v, walkPath s ++ [b] <+: codeString (romRead s.rom v) :=
  exists_code_through_child (h.ready.ready ▸ hr) b (h.walk.inRange hr) (h.walk.isNode hr) hl

/-! ### The operations -/

/-- The invariant speaks of the core's registers only: not of the strings, the port or the host. -/
theorem Inv.withExternal {s : State} (h : Inv s) (x y : BitString) (p : List HostRequest) (m : List HostMove) :
    Inv { s with sink := x, src := y, pending := p, hostMoves := m } := by
  obtain ⟨⟨hrange, hnode, hroot⟩, ⟨hready, hnot, hheld⟩, ⟨hex, hwalk, hbits, hn⟩, hres⟩ := h
  exact ⟨⟨hrange, hnode, hroot⟩, ⟨hready, hnot, hheld⟩, ⟨hex, hwalk, hbits, hn⟩, hres⟩

theorem Inv.clearFlags {s : State} (h : Inv s) : Inv (clearFlags s) where
  walk := ⟨h.walk.inRange, h.walk.isNode, h.walk.atRoot⟩
  ready := ⟨h.ready.ready, h.ready.notReady, h.ready.held⟩
  flags := ⟨by simp, fun _ => ⟨rfl, rfl⟩, h.flags.resBits, h.flags.walkN⟩
  result := fun hv => by simp at hv

theorem Inv.endWalk {s : State} (h : Inv s) : Inv (endWalk s) where
  walk := .of_atRoot rfl rfl
  ready := ⟨h.ready.ready, h.ready.notReady, fun _ => rfl⟩
  flags := ⟨h.flags.exclusive, fun hb => by simp at hb, h.flags.resBits, by simp⟩
  result := h.result

/-- A result is a symbol's own entry, set in a core that is not busy and shows no `EOS`. -/
theorem Inv.setResult {s : State} {v : Symbol} {c : Code} {n : Len} (h : Inv s) (hb : s.busy = false)
    (he : s.eos = false) (hv : romRead s.rom v = ⟨c, n⟩) (hn : n.toNat ≤ 32) : Inv (setResult v c n s) where
  walk := ⟨h.walk.inRange, h.walk.isNode, h.walk.atRoot⟩
  ready := ⟨h.ready.ready, h.ready.notReady, h.ready.held⟩
  flags := ⟨by simp [he], by simp [hb], hn, h.flags.walkN⟩
  result := fun _ => hv

/-- A walk starts in a core that no fault holds and whose flags are clear. -/
theorem Inv.startWalk {s : State} (h : Inv s) (hf : s.fault = .noFault) (hv : s.resValid = false)
    (he : s.eos = false) : Inv (startWalk s) where
  walk := .of_atRoot rfl rfl
  ready := ⟨h.ready.ready, h.ready.notReady, fun hne => absurd hf hne⟩
  flags := ⟨h.flags.exclusive, fun _ => ⟨hv, he⟩, h.flags.resBits, by simp⟩
  result := h.result

/-- A fault at acceptance: the core is ready and its walk at the root. -/
theorem Inv.raiseFault {s : State} (h : Inv s) (hb : s.busy = false) (hr : s.ready = true) (f : FaultCode) :
    Inv (raiseFault f s) where
  walk := ⟨h.walk.inRange, h.walk.isNode, fun _ => h.walk.atRoot hb⟩
  ready := ⟨h.ready.ready, fun hn => by simp [hr] at hn, fun _ => rfl⟩
  flags := ⟨h.flags.exclusive, fun hb' => by simp at hb', h.flags.resBits, h.flags.walkN⟩
  result := h.result

/-- EndOfStream ends a walk: the result flag is clear, and the count of bits is the walk's depth (R154). -/
theorem Inv.endOfStream {s : State} (h : Inv s) (hb : s.busy = true) : Inv (Machine.endWalk (setEndOfStream s)) where
  walk := .of_atRoot rfl rfl
  ready := ⟨h.ready.ready, h.ready.notReady, fun _ => rfl⟩
  flags := ⟨by simp [(h.flags.walking hb).1], fun hb' => by simp at hb', h.flags.walkN, by simp⟩
  result := fun hv => by simp [(h.flags.walking hb).1] at hv

/-- One bit taken leads from a node that is no leaf to a node of the trie (R151). -/
theorem Inv.advanceWalk {s : State} (h : Inv s) (hb : s.busy = true) (hr : s.ready = true)
    (hl : leafTest s.rom s.walkP s.walkN = none) (b : Bool) : Inv (advanceWalk b s) := by
  obtain ⟨hlt, hchild⟩ := h.child_of_notLeaf hr hl b
  have hn : (s.walkN + 1#6).toNat = s.walkN.toNat + 1 := toNat_len_succ hlt
  refine ⟨⟨fun _ => ?_, fun _ => ?_, fun hb' => ?_⟩, ⟨h.ready.ready, h.ready.notReady, h.ready.held⟩,
    ⟨h.flags.exclusive, h.flags.walking, h.flags.resBits, ?_⟩, h.result⟩
  · rw [advanceWalk_walkP, advanceWalk_walkN, hn]
    exact extend_lt b hlt (h.walk.inRange hr)
  · rw [walkPath_advance b hlt]
    exact hchild
  · exact absurd (hb.symm.trans hb') (by decide)
  · rw [advanceWalk_walkN, hn]
    omega

/-! ### The steps -/

/-- The depth guard is no case of it: a walk at depth 32 is at a leaf. -/
theorem Inv.decStep {s : State} (h : Inv s) (hf : s.fault = .noFault) (hb : s.busy = true) : Inv (decStep s) := by
  have hr := h.ready.ready_of_noFault hf
  rcases decStep_cases s with ⟨v, hl, hd⟩ | ⟨hl, hn, _⟩ | ⟨_, _, _, hd⟩ | ⟨b, rest, hl, _, _, hd⟩
  · rw [hd]
    exact h.endWalk.setResult rfl (h.flags.walking hb).2 (romRead_of_leafTest hl) h.flags.walkN
  · obtain ⟨hlt, _⟩ := h.child_of_notLeaf hr hl true
    simp [hn] at hlt
  · rw [hd]
    exact h.endOfStream hb
  · rw [hd]
    exact (h.withExternal s.sink rest s.pending s.hostMoves).advanceWalk hb hr hl b

theorem Inv.exec {s t : State} {i : Instr} (h : Inv s) (hf : s.fault = .noFault) (hb : s.busy = false)
    (hr : s.ready = true) (hx : exec i s = .next t) : Inv t := by
  rcases exec_next_cases hx with ⟨v, rfl⟩ | ⟨v, rfl⟩ | ⟨_, rfl⟩
  · exact h.clearFlags.setResult hb rfl rfl (h.romRead_bits_le hr v)
  · exact (h.clearFlags.withExternal _ s.src s.pending s.hostMoves).setResult hb rfl rfl (h.romRead_bits_le hr v)
  · exact h.clearFlags.startWalk hf rfl rfl

theorem Inv.coreStep {s t : State} (h : Inv s) (hc : coreStep s = .next t) : Inv t := by
  rcases coreStep_next_cases hc with rfl | ⟨hf, hb, rfl⟩ | ⟨r, rest, hf, hb, hr, _, _, hx⟩
  · exact h
  · exact h.decStep hf hb
  · have h' := h.withExternal s.sink s.src rest s.hostMoves
    rcases hx with ⟨i, hi⟩ | ⟨f, _, rfl⟩
    · exact h'.exec hf hb hr hi
    · exact h'.raiseFault hb hr f

/-- Settles O45: a step is the core's own, a reset, or a change of an external string. -/
theorem stepKeepsInv : Obligations.StepKeepsInv := by
  unfold Obligations.StepKeepsInv
  intro s t h hs
  rcases step_cases hs with ⟨p, m, _, hc⟩ | ⟨p, m, _, rfl⟩ | ⟨_, x, y, m, rfl⟩
  · exact (h.withExternal s.sink s.src p m).coreStep hc
  · exact inv_resetCore _
  · exact h.withExternal x y s.pending m

end Sys2Proof.Machine
end

section
/-! The two external strings (20_memory.md): one transaction at each port (R55, R57), the host's moves on them (R69,
R70, R202), and the concatenation that successive ENCODE commands leave in `SINK` (R52, R141). -/

namespace Sys2Proof.Machine

theorem sourceRead_eq_none_iff (s : State) : sourceRead s = none ↔ s.src = [] := by
  cases hs : s.src with
  | nil => simp [sourceRead_empty hs]
  | cons b rest => simp [sourceRead_bit hs]

theorem sourceRead_eq_some_iff (s t : State) (b : Bool) :
    sourceRead s = some (b, t) ↔ s.src = b :: t.src ∧ { t with src := s.src } = s := by
  constructor
  · intro h
    cases hs : s.src with
    | nil => simp [sourceRead_empty hs] at h
    | cons c rest =>
      rw [sourceRead_bit hs] at h
      cases h
      exact ⟨rfl, by rw [← hs]⟩
  · rintro ⟨hs, ht⟩
    have hrest : { s with src := t.src } = t := congrArg (fun u : State => { u with src := t.src }) ht.symm
    rw [sourceRead_bit hs, hrest]

/-- Settles O23: the append by its definition, the read by the two forms `SRC` can have. -/
theorem portTransactions : Obligations.PortTransactions := by
  unfold Obligations.PortTransactions
  exact ⟨fun n d s => ⟨sinkAppend_sink n d s, rfl⟩,
    fun s => ⟨sourceRead_eq_none_iff s, fun b t => sourceRead_eq_some_iff s t b⟩⟩

/-- Settles O36: each of the three moves tests `BUSY`. -/
theorem hostStringMoves : Obligations.HostStringMoves := by
  unfold Obligations.HostStringMoves
  refine fun s x m => ⟨fun hidle => ?_, fun hbusy => ?_⟩
  · have hb : ¬s.busy = true := by simp [hidle]
    exact ⟨fun h => (step_move h).trans (if_neg hb), fun h => (step_move h).trans (if_neg hb),
      fun h => (step_move h).trans (if_neg hb)⟩
  · exact ⟨fun h => (step_move h).trans (if_pos hbusy), fun h => (step_move h).trans (if_pos hbusy),
      fun h => (step_move h).trans (if_pos hbusy)⟩

/-- A ready port with a command's word oldest gives the command its meaning in that step (R200). -/
theorem step_commandWord {s : State} {i : Instr} {rest : List HostRequest} {m : List HostMove}
    (h : cmdReady s = true) (hc : CoreRuns s (.word (encodeCmd i) :: rest) m) :
    step s = exec i { s with pending := rest, hostMoves := m } := by
  obtain ⟨hb, hr, hf⟩ := (cmdReady_iff s).mp h
  rw [step_of_coreRuns hc hf,
    coreStep_accept (s := { s with pending := .word (encodeCmd i) :: rest, hostMoves := m }) hf hb hr rfl]
  exact acceptWord_legal (decodeCmd_encodeCmd i) _

/-- An ENCODE appends its symbol's code to the sink (R140), and leaves the port ready for the next word and the ROM as
it was. -/
theorem step_encodeWord {s : State} {v : Symbol} {rest : List HostRequest} {m : List HostMove}
    (h : cmdReady s = true) (hc : CoreRuns s (.word (encodeCmd (.encode v)) :: rest) m) :
    ∃ t, step s = .next t ∧ cmdReady t = true ∧ t.hostMoves = m ∧ t.pending = rest ∧ t.rom = s.rom ∧
      t.sink = s.sink ++ codeString (romRead s.rom v) :=
  ⟨_, step_commandWord h hc, h, rfl, rfl, rfl, rfl⟩

/-- Settles O19, by induction on the symbols: each step is one ENCODE, and the run goes on from the state it leaves. -/
theorem encodeSequence : Obligations.EncodeSequence := by
  unfold Obligations.EncodeSequence
  intro vs
  induction vs with
  | nil => exact fun s _ _ hp => ⟨s, run_zero s, hp, by simp⟩
  | cons v vs ih =>
    intro s hready hm hp
    obtain ⟨t, hstep, htready, htm, htp, hrom, hsink⟩ := step_encodeWord hready (.inl ⟨hm, hp.symm, rfl⟩)
    obtain ⟨u, hrun, hport, husink⟩ := ih t htready htm htp
    refine ⟨u, (run_succ hstep _).trans hrun, hport, ?_⟩
    rw [husink, hsink, hrom, List.flatMap_cons, List.append_assoc]

end Sys2Proof.Machine
end

section
/-! The 65536 words by their numbers (30_encoding.md): the fields as parts of the number (R80), each refusal by the
field that is wrong (R86), and the statements on the decoder and the encoder. -/

namespace Sys2Proof.Machine

/-- Settles O1: the word of a command has that command's fields. -/
theorem decodeEncode : Obligations.DecodeEncode := by
  unfold Obligations.DecodeEncode
  exact decodeCmd_encodeCmd

/-- Settles O2: the three fields fix the word. -/
theorem legalWordIsItsEncoding : Obligations.LegalWordIsItsEncoding := by
  unfold Obligations.LegalWordIsItsEncoding
  exact fun _ _ => encodeCmd_of_decodeCmd

/-! ### The fields as numbers -/

theorem opField_eq_iff (w : CmdWord) (op : BitVec 4) : opField w = op ↔ w.toNat / 4096 = op.toNat := by
  rw [← BitVec.toNat_inj, opField, BitVec.extractLsb'_toNat, Nat.shiftRight_eq_div_pow]
  omega

theorem rsvField_eq_zero_iff (w : CmdWord) : rsvField w = 0x0#4 ↔ w.toNat / 256 % 16 = 0 := by
  rw [← BitVec.toNat_inj, rsvField, BitVec.extractLsb'_toNat, Nat.shiftRight_eq_div_pow]
  rfl

theorem symField_eq_zero_iff (w : CmdWord) : symField w = 0x00#8 ↔ w.toNat % 256 = 0 := by
  rw [← BitVec.toNat_inj, symField, BitVec.extractLsb'_toNat, Nat.shiftRight_eq_div_pow]
  simp

/-! ### Each outcome by the fields -/

/-- Every symbol is legal with LOOKUP and ENCODE (R82), only 0 with DECODE (R84). -/
theorem exists_decodeCmd_ok_iff (w : CmdWord) :
    (∃ i, decodeCmd w = .ok i) ↔
      rsvField w = 0x0#4 ∧ (opField w = 0x1#4 ∨ opField w = 0x2#4 ∨ opField w = 0x3#4 ∧ symField w = 0x00#8) := by
  simp only [decodeCmd_eq_ok_iff]
  constructor
  · rintro ⟨i, ho, hr, hs⟩
    refine ⟨hr, ?_⟩
    cases i with
    | lookup sym => exact .inl ho
    | encode sym => exact .inr (.inl ho)
    | decode => exact .inr (.inr ⟨ho, hs⟩)
  · rintro ⟨hr, ho | ho | ⟨ho, hs⟩⟩
    · exact ⟨.lookup (symField w), ho, hr, rfl⟩
    · exact ⟨.encode (symField w), ho, hr, rfl⟩
    · exact ⟨.decode, ho, hr, hs⟩

/-- The reserved field is looked at first (R83, R179): whatever the other fields are, it alone decides this refusal. -/
theorem decodeCmd_eq_reservedField_iff (w : CmdWord) :
    decodeCmd w = .error .reservedField ↔ rsvField w ≠ 0x0#4 := by
  unfold decodeCmd
  split_ifs with hr <;> simp [hr]

theorem decodeCmd_eq_decodeOperand_iff (w : CmdWord) :
    decodeCmd w = .error .decodeOperand ↔ rsvField w = 0x0#4 ∧ opField w = 0x3#4 ∧ symField w ≠ 0x00#8 := by
  unfold decodeCmd
  split_ifs with hr ho ho ho hs <;> simp_all

/-- Settles O3: each outcome by the fields, and the fields as parts of the number. -/
theorem legalWordRanges : Obligations.LegalWordRanges := by
  unfold Obligations.LegalWordRanges
  intro w
  rw [exists_decodeCmd_ok_iff, decodeCmd_eq_reservedField_iff, decodeCmd_eq_decodeOperand_iff]
  simp only [opField_eq_iff, rsvField_eq_zero_iff, symField_eq_zero_iff, ne_eq, BitVec.reduceToNat]
  exact ⟨by omega, trivial, by omega⟩

/-- Settles O4: nine closed words, evaluated. -/
theorem writtenWordsDecode : Obligations.WrittenWordsDecode := by
  unfold Obligations.WrittenWordsDecode
  decide

end Sys2Proof.Machine
end

section
/-! The symbol domain 0..255 of an integer operand (R82, R88, R175): the same for a host's call and for a line of
assembler, and never a truncation. -/

namespace Sys2Proof.Machine

theorem symbolOfNat_eq_some_iff (n : Nat) (v : Symbol) : symbolOfNat n = some v ↔ n = v.toNat := by
  unfold symbolOfNat
  split_ifs with hn
  · rw [Option.some_inj, ← BitVec.toNat_inj, BitVec.toNat_ofNat, Nat.mod_eq_of_lt hn]
  · exact iff_of_false nofun (by omega)

theorem symbolOfNat_eq_none_iff (n : Nat) : symbolOfNat n = none ↔ 256 ≤ n := by
  unfold symbolOfNat
  split_ifs with hn
  · exact iff_of_false nofun (by omega)
  · exact iff_of_true rfl (by omega)

theorem toInstr_lookup_eq_ok_iff (n : Nat) (v : Symbol) :
    (AsmLine.mk .lookup (some n)).toInstr = .ok (.lookup v) ↔ n = v.toNat := by
  rw [← symbolOfNat_eq_some_iff]
  cases h : symbolOfNat n <;> simp [AsmLine.toInstr, h]

theorem toInstr_encode_eq_ok_iff (n : Nat) (v : Symbol) :
    (AsmLine.mk .encode (some n)).toInstr = .ok (.encode v) ↔ n = v.toNat := by
  rw [← symbolOfNat_eq_some_iff]
  cases h : symbolOfNat n <;> simp [AsmLine.toInstr, h]

/-- Settles O5: with an operand, by the symbol domain; every other line is refused or accepted by its form. -/
theorem assemblerChecks : Obligations.AssemblerChecks := by
  unfold Obligations.AssemblerChecks
  refine ⟨toInstr_lookup_eq_ok_iff, toInstr_encode_eq_ok_iff, fun n hn => ?_, rfl, rfl, rfl, fun _ => rfl⟩
  have hnone := (symbolOfNat_eq_none_iff n).mpr hn
  exact ⟨by simp [AsmLine.toInstr, hnone], by simp [AsmLine.toInstr, hnone]⟩

end Sys2Proof.Machine
end

section
/-! A word placed for the next step (R80, R200; log entry 10). -/

namespace Sys2Proof.Machine

theorem decodeTableWord_eq_some_iff (w : Nat) (i : Instr) :
    decodeTableWord 16 w = some i ↔ decodeCmd (BitVec.ofNat 16 (w % 2 ^ 16)) = .ok i := by
  have hw : w % 2 ^ 16 < 2 ^ 16 := Nat.mod_lt w (by decide)
  rw [decodeTableWord, if_pos hw]
  cases decodeCmd (BitVec.ofNat 16 (w % 2 ^ 16)) <;> simp

/-- A placed word is the oldest at a ready port, in a step in which the host ticks. -/
theorem step_placeWord {w : CmdWord} {i : Instr} (h : decodeCmd w = .ok i) (s : State) :
    step (placeWord w s) = exec i { s with ready := true, busy := false, fault := .noFault } := by
  rw [← encodeCmd_of_decodeCmd h]
  exact step_commandWord (s := placeWord (encodeCmd i) s) rfl (.inr (.inl ⟨rfl, rfl⟩))

/-- Settles O7: the table's reading of the low 16 bits is the decoder's. -/
theorem placedWordRuns : Obligations.PlacedWordRuns := by
  unfold Obligations.PlacedWordRuns
  exact fun s w i h => step_placeWord ((decodeTableWord_eq_some_iff w i).mp h) s

end Sys2Proof.Machine
end

section
/-! The pinned rows of an admissible table (R107, R108), and the code lengths they leave possible. -/

namespace Sys2Proof.Machine

/-- The rows of R107, with those over the whole table said of each symbol's entry. -/
theorem pinnedRows_iff (T : CodeTable) :
    pinnedRows T = true ↔
      romRead T 0#8 = ⟨0x0#32, 2#6⟩ ∧ romRead T 1#8 = ⟨0x4#32, 3#6⟩ ∧ romRead T 255#8 = ⟨0x623FE66#32, 27#6⟩ ∧
      (∀ v, (romRead T v).bits.toNat ≤ 27) ∧ ∀ v, romRead T v ≠ ⟨0x1#32, 1#6⟩ := by
  simp only [pinnedRows, Bool.and_eq_true, beq_iff_eq, all_iff_romRead, Nat.ble_eq, Bool.not_eq_true',
    beq_eq_false_iff_ne, and_assoc]

theorem longestCode_le_iff (T : CodeTable) (n : Nat) :
    longestCode T ≤ n ↔ ∀ v, (romRead T v).bits.toNat ≤ n := by
  have hfold (l : List RomEntry) :
      l.foldr (fun e m => max e.bits.toNat m) 0 ≤ n ↔ l.all (fun e => Nat.ble e.bits.toNat n) = true := by
    induction l with
    | nil => simp
    | cons e l ih => simp only [List.foldr_cons, max_le_iff, ih, List.all_cons, Bool.and_eq_true, Nat.ble_eq]
  rw [longestCode, hfold, all_iff_romRead]
  simp only [Nat.ble_eq]

/-- The one-bit code `0` begins entry 0's `00`, which R104 forbids, and R107 excludes the one-bit code `1`. -/
theorem bits_ne_one_of_admissible {T : CodeTable} (h : AdmissibleTable T) (v : Symbol) :
    (romRead T v).bits.toNat ≠ 1 := by
  obtain ⟨hT, hpins⟩ := h
  obtain ⟨_, hrange, hfree, _⟩ := (tableOk_iff T).mp hT
  obtain ⟨hzero, _, _, _, hnotOne⟩ := (pinnedRows_iff T).mp hpins
  intro hbits
  have hlt : (romRead T v).code.toNat < 2 ^ 1 := hbits ▸ hrange v
  have hne : v ≠ 0#8 := by
    rintro rfl
    simp [hzero] at hbits
  have hnotPrefix := hfree v 0#8 hne
  have hentry : romRead T v = ⟨(romRead T v).code, 1#6⟩ := congrArg (RomEntry.mk _) (BitVec.eq_of_toNat_eq hbits)
  obtain hc | hc : (romRead T v).code = 0x0#32 ∨ (romRead T v).code = 0x1#32 := by
    simp only [← BitVec.toNat_inj, BitVec.reduceToNat]
    omega
  · rw [hentry, hc, hzero] at hnotPrefix
    exact hnotPrefix (by decide)
  · exact hnotOne v (hc ▸ hentry)

/-- Settles O47: the longest code by entry 255 and the bound of R107, the least length by the two excluded lengths 0
and 1. -/
theorem admissibleLengths : Obligations.AdmissibleLengths := by
  unfold Obligations.AdmissibleLengths
  intro T h
  obtain ⟨hlen, _⟩ := (tableOk_iff T).mp h.1
  obtain ⟨_, _, hlast, hmax, _⟩ := (pinnedRows_iff T).mp h.2
  refine ⟨le_antisymm ((longestCode_le_iff T 27).mpr hmax) ?_, fun v => ⟨?_, hmax v⟩⟩
  · simpa [hlast] using (longestCode_le_iff T _).mp le_rfl 255#8
  · have hpos := (hlen v).1
    have hne := bits_ne_one_of_admissible h v
    omega

end Sys2Proof.Machine
end

section
/-! The three commands from their acceptance on (R111, R140, R150): the state each leaves, what it does not write, and
LOOKUP as one step of the machine. -/

namespace Sys2Proof.Machine

theorem exec_lookup (v : Symbol) (s : State) :
    exec (.lookup v) s = .next (setResult v (romRead s.rom v).code (romRead s.rom v).bits (clearFlags s)) := rfl

theorem exec_encode (v : Symbol) (s : State) :
    exec (.encode v) s = .next (setResult v (romRead s.rom v).code (romRead s.rom v).bits
      (sinkAppend (romRead s.rom v).bits (romRead s.rom v).code (clearFlags s))) := rfl

theorem exec_decode (s : State) : exec .decode s = .next (startWalk (clearFlags s)) := rfl

/-- Settles O11, field by field from the operations each command is made of. -/
theorem commandFrame : Obligations.CommandFrame := by
  unfold Obligations.CommandFrame
  refine ⟨fun v s t h => ?_, fun v s t h => ?_, fun s t h => ?_⟩
  · rw [exec_lookup] at h
    cases h
    simp
  · rw [exec_encode] at h
    cases h
    simp
  · rw [exec_decode] at h
    cases h
    simp

/-- `STATUS` of a ready port that shows a result (R24): `RES_VALID` and `READY`. -/
theorem statusWord_of_result {s : State} (h : cmdReady s = true) (hv : s.resValid = true) (he : s.eos = false) :
    statusWord s = 0x0006#16 := by
  obtain ⟨hb, hr, hf⟩ := (cmdReady_iff s).mp h
  simp [statusWord, flagWord, faultBits, hb, hr, hf, hv, he]

/-- A second LOOKUP of one symbol reads the same entry and finds the flags as it leaves them. -/
theorem exec_lookup_repeat {v : Symbol} {s t : State} (h : exec (.lookup v) s = .next t) :
    exec (.lookup v) t = .next t := by
  rw [exec_lookup] at h
  cases h
  rfl

/-- Settles O8: the word by its fields, the step by the acceptance of a command's word, the example by the pinned
entry 255. -/
theorem lookupRule : Obligations.LookupRule := by
  unfold Obligations.LookupRule
  refine ⟨fun v => decodeCmd_encodeCmd (.lookup v), exec_lookup,
    fun v s rest m hready hruns => step_commandWord (i := .lookup v) hready hruns,
    fun w _ hrsv => (decodeCmd_eq_reservedField_iff w).mpr hrsv, fun _ _ _ => exec_lookup_repeat, ?_⟩
  intro s t hT hready h
  obtain ⟨_, _, hlast, _, _⟩ := (pinnedRows_iff s.rom).mp hT.2
  rw [exec_lookup] at h
  cases h
  exact ⟨rfl, congrArg RomEntry.code hlast, congrArg RomEntry.bits hlast, statusWord_of_result hready rfl rfl⟩

end Sys2Proof.Machine
end

section
/-! The nodes of the built trie by the codes (41_trie.md R125, R127 to R130), and the reset-time check (R124). What holds
of any trie is said of its leaves; a table enters only by `builtLeaf_iff`, which says that the leaves are the codes. -/

namespace Sys2Proof.Machine

/-! ### Any trie, by its leaves -/

@[simp] theorem trieNode_nil (t : Trie) : trieNode t [] = some t := by cases t <;> rfl

/-- A node is internal exactly when its path is a proper prefix of a leaf's. -/
theorem exists_internal_iff (t : Trie) (x : BitString) :
    (∃ zero one, trieNode t x = some (.internal zero one)) ↔
      ∃ v y, trieNode t y = some (.leaf v) ∧ x <+: y ∧ x ≠ y := by
  constructor
  · rintro ⟨zero, one, hx⟩
    obtain ⟨y, v, hy⟩ := exists_leaf zero
    exact ⟨v, x ++ false :: y, by simpa [trieNode_append, hx, trieNode] using hy, by simp, by simp⟩
  · rintro ⟨v, _, hleaf, ⟨y, rfl⟩, hne⟩
    rw [trieNode_append, Option.bind_eq_some_iff] at hleaf
    obtain ⟨u, hu, huy⟩ := hleaf
    cases u with
    | internal zero one => exact ⟨zero, one, hu⟩
    | leaf w =>
      cases y with
      | nil => simp at hne
      | cons b y => simp [trieNode] at huy

/-- A string is no node exactly when a leaf's path is a proper prefix of it. -/
theorem trieNode_eq_none_iff (t : Trie) (x : BitString) :
    trieNode t x = none ↔ ∃ v y, trieNode t y = some (.leaf v) ∧ y <+: x ∧ y ≠ x := by
  constructor
  · intro h
    obtain ⟨y, v, hpre, hne, hleaf⟩ := exists_leaf_above t x h
    exact ⟨v, y, hleaf, hpre, hne⟩
  · rintro ⟨v, y, hleaf, ⟨z, rfl⟩, hne⟩
    cases z with
    | nil => simp at hne
    | cons b z => simp [trieNode_append, hleaf, trieNode]

/-- A full binary tree has one leaf more than internal nodes (G3). -/
theorem length_trieLeaves (t : Trie) : (trieLeaves t).length = trieInternals t + 1 := by
  induction t with
  | leaf v => rfl
  | internal zero one hzero hone =>
    simp only [trieLeaves, trieInternals, List.length_append]
    omega

/-- A trie where each symbol stands at one leaf at most lists no symbol twice. -/
theorem nodup_trieLeaves (t : Trie)
    (h : ∀ v x y, trieNode t x = some (.leaf v) → trieNode t y = some (.leaf v) → x = y) : (trieLeaves t).Nodup := by
  induction t with
  | leaf v => exact List.nodup_singleton v
  | internal zero one hzero hone =>
    refine List.nodup_append'.mpr ⟨hzero fun v x y hx hy => ?_, hone fun v x y hx hy => ?_, fun v hvz hvo => ?_⟩
    · exact (List.cons.inj (h v (false :: x) (false :: y) hx hy)).2
    · exact (List.cons.inj (h v (true :: x) (true :: y) hx hy)).2
    · obtain ⟨x, hx⟩ := (mem_trieLeaves zero v).mp hvz
      obtain ⟨y, hy⟩ := (mem_trieLeaves one v).mp hvo
      exact absurd (h v (false :: x) (true :: y) hx hy) (by simp)

theorem exists_leaf_at_trieDepth (t : Trie) : ∃ x v, trieNode t x = some (.leaf v) ∧ x.length = trieDepth t := by
  induction t with
  | leaf v => exact ⟨[], v, rfl, rfl⟩
  | internal zero one hzero hone =>
    obtain ⟨x, v, hx, hxlen⟩ := hzero
    obtain ⟨y, w, hy, hylen⟩ := hone
    simp only [trieDepth]
    rcases le_total (trieDepth one) (trieDepth zero) with hle | hle
    · exact ⟨false :: x, v, hx, by simp [hxlen, hle]⟩
    · exact ⟨true :: y, w, hy, by simp [hylen, hle]⟩

/-- A list of symbols with each symbol exactly once has the 256 of them. -/
theorem length_eq_256_of_nodup {l : List Symbol} (hnodup : l.Nodup) (hall : ∀ v, v ∈ l) : l.length = 256 := by
  have hfin : ((List.finRange 256).map (BitVec.ofFin (w := 8))).Nodup :=
    (List.nodup_finRange 256).map fun _ _ => BitVec.ofFin.inj
  have hperm : l.Perm ((List.finRange 256).map (BitVec.ofFin (w := 8))) :=
    (List.perm_ext_iff_of_nodup hnodup hfin).mpr fun v => by
      simp only [hall v, List.mem_map, true_iff]
      exact ⟨v.toFin, List.mem_finRange _, rfl⟩
  simpa using hperm.length_eq

/-! ### The trie of a table that passes the check -/

/-- Two codes that begin one string are the same symbol's (R104). -/
theorem eq_of_codes_prefix {T : CodeTable} (hfree : CodesPrefixFree T) {u v : Symbol} {x : BitString}
    (hu : codeString (romRead T u) <+: x) (hv : codeString (romRead T v) <+: x) : u = v := by
  by_contra hne
  rcases List.prefix_or_prefix_of_prefix hu hv with h | h
  · exact hfree u v hne h
  · exact hfree v u (Ne.symm hne) h

/-- The leaves are the codes (R127): a code, lengthened to the depth of the trie, runs into a leaf, whose code begins
the same string. -/
theorem builtLeaf_iff {T : CodeTable} {t : Trie} (hT : tableOk T = true) (ht : buildTrie T = some t) (x : BitString)
    (v : Symbol) : trieNode t x = some (.leaf v) ↔ codeString (romRead T v) = x := by
  obtain ⟨_, _, hfree, _⟩ := (tableOk_iff T).mp hT
  refine ⟨codeString_of_builtLeaf ht, ?_⟩
  rintro rfl
  obtain ⟨y, u, hpre, hleaf⟩ := exists_leaf_on_path t
    (codeString (romRead T v) ++ List.replicate (trieDepth t) false) (by simp)
  have hcode : codeString (romRead T u) = y := codeString_of_builtLeaf ht hleaf
  have huv : u = v := eq_of_codes_prefix hfree (hcode ▸ hpre) (List.prefix_append _ _)
  rw [← huv, hcode, hleaf]

/-- An internal node is a proper prefix of a code (R127). -/
theorem builtInternal_iff {T : CodeTable} {t : Trie} (hT : tableOk T = true) (ht : buildTrie T = some t)
    (x : BitString) :
    (∃ zero one, trieNode t x = some (.internal zero one)) ↔
      ∃ v, x <+: codeString (romRead T v) ∧ x ≠ codeString (romRead T v) := by
  simp only [exists_internal_iff, builtLeaf_iff hT ht, exists_eq_left']

theorem mem_trieLeaves_built {T : CodeTable} {t : Trie} (hT : tableOk T = true) (ht : buildTrie T = some t)
    (v : Symbol) : v ∈ trieLeaves t :=
  (mem_trieLeaves t v).mpr ⟨_, (builtLeaf_iff hT ht _ v).mpr rfl⟩

theorem nodup_trieLeaves_built {T : CodeTable} {t : Trie} (ht : buildTrie T = some t) : (trieLeaves t).Nodup :=
  nodup_trieLeaves t fun _ _ _ hx hy => (codeString_of_builtLeaf ht hx).symm.trans (codeString_of_builtLeaf ht hy)

/-- The deepest leaf stands at a code, and every code is a node. -/
theorem trieDepth_built {T : CodeTable} {t : Trie} (hT : tableOk T = true) (ht : buildTrie T = some t) :
    trieDepth t = longestCode T := by
  apply le_antisymm
  · obtain ⟨x, v, hx, hlen⟩ := exists_leaf_at_trieDepth t
    rw [← hlen, ← codeString_of_builtLeaf ht hx, codeString_length]
    exact (longestCode_le_iff T _).mp le_rfl v
  · refine (longestCode_le_iff T _).mpr fun v => ?_
    simpa using length_le_trieDepth t _ _ ((builtLeaf_iff hT ht _ v).mpr rfl)

/-- No code is empty (R102), so the root is above a leaf. -/
theorem root_internal {T : CodeTable} {t : Trie} (hT : tableOk T = true) (ht : buildTrie T = some t) :
    ∃ zero one, t = .internal zero one := by
  obtain ⟨hlen, _⟩ := (tableOk_iff T).mp hT
  have hne : [] ≠ codeString (romRead T 0#8) := by
    intro h
    have hzero : 0 = (romRead T 0#8).bits.toNat := by simpa using congrArg List.length h
    have hpos := (hlen 0#8).1
    omega
  simpa using (builtInternal_iff hT ht []).mpr ⟨0#8, List.nil_prefix, hne⟩

/-! ### The statements -/

/-- Settles O31, from the bit-string form of the check and the values of `READY` and `FAULT` after a reset. -/
theorem resetChecksTable : Obligations.ResetChecksTable := by
  unfold Obligations.ResetChecksTable
  intro s
  refine ⟨by rw [resetCore_ready, tableOk_iff], ?_⟩
  cases hT : tableOk s.rom <;> simp [hT]

/-- Settles O49: a leaf of the test and a leaf of the built trie are both the node at the symbol's code. -/
theorem leafTestIsTrieLeaf : Obligations.LeafTestIsTrieLeaf := by
  unfold Obligations.LeafTestIsTrieLeaf
  intro T trie p n v hT ht _ hp
  have hleaf := leafTest_eq_some_iff hT hp (v := v)
  refine ⟨⟨romRead_of_leafTest, fun hrom => hleaf.mpr (by rw [hrom]; rfl)⟩, ?_⟩
  rw [hleaf, builtLeaf_iff hT ht]

/-- Settles O50: each kind of node by the leaves, and the leaves by the codes. -/
theorem nodeKinds : Obligations.NodeKinds := by
  unfold Obligations.NodeKinds
  intro T trie x hT ht _
  refine ⟨fun v => (builtLeaf_iff hT ht x v).trans eq_comm, builtInternal_iff hT ht x, ?_⟩
  simp only [trieNode_eq_none_iff, builtLeaf_iff hT ht, exists_eq_left']

/-- Settles O51: each symbol is at one leaf, the internal nodes are one fewer than the leaves (G3), and the deepest leaf
is the longest code. -/
theorem trieCounts : Obligations.TrieCounts := by
  unfold Obligations.TrieCounts
  intro T trie hT ht
  have hnodup := nodup_trieLeaves_built ht
  have hall := mem_trieLeaves_built hT ht
  have hleaves := length_eq_256_of_nodup hnodup hall
  have hinternals := length_trieLeaves trie
  have hdepth := trieDepth_built hT ht
  refine ⟨hleaves, hnodup, hall, by omega, by omega, hdepth, fun hpins => ?_, root_internal hT ht⟩
  rw [hdepth, (admissibleLengths T ⟨hT, hpins⟩).1]

/-- Settles O52: the pinned codes are `00`, `100` and `code_255`, and each internal node named is a proper prefix of one
of them. -/
theorem pinnedNodes : Obligations.PinnedNodes := by
  unfold Obligations.PinnedNodes
  intro T trie ⟨hT, hpins⟩ ht internal
  obtain ⟨hzero, hone, hlast, _, _⟩ := (pinnedRows_iff T).mp hpins
  have hcode0 : codeString (romRead T 0#8) = [false, false] := by rw [hzero]; decide
  have hcode1 : codeString (romRead T 1#8) = [true, false, false] := by rw [hone]; decide
  have hcode255 : codeString (romRead T 255#8) = bitstr 0x623FE66#32 27 := by rw [hlast]; rfl
  have hinternal {x y : BitString} {v : Symbol} (hcode : codeString (romRead T v) = y) (hpre : x <+: y) (hne : x ≠ y) :
      internal x := (builtInternal_iff hT ht x).mpr ⟨v, hcode ▸ hpre, hcode ▸ hne⟩
  exact ⟨hinternal hcode0 (by decide) (by decide), hinternal hcode0 (by decide) (by decide),
    hinternal hcode1 (by decide) (by decide), hinternal hcode1 (by decide) (by decide),
    hinternal hcode255 (by decide) (by decide), (builtLeaf_iff hT ht _ _).mpr hcode0,
    (builtLeaf_iff hT ht _ _).mpr hcode1, (builtLeaf_iff hT ht _ _).mpr hcode255, fun _ => hinternal hcode255⟩

end Sys2Proof.Machine
end

section
/-! ENCODE (42_encoder.md R140): an illegal word as one step of the machine (R174), and the statement on the command. -/

namespace Sys2Proof.Machine

/-- A ready port with an illegal word oldest raises `ILLEGAL_COMMAND` in that step, with no other effect (R174). -/
theorem step_illegalWord {s : State} {w : CmdWord} {e : DecodeError} {rest : List HostRequest} {m : List HostMove}
    (h : cmdReady s = true) (hc : CoreRuns s (.word w :: rest) m) (he : decodeCmd w = .error e) :
    step s = .next { s with fault := .illegalCommand, pending := rest, hostMoves := m } := by
  obtain ⟨hb, hr, hf⟩ := (cmdReady_iff s).mp h
  rw [step_of_coreRuns hc hf,
    coreStep_accept (s := { s with pending := .word w :: rest, hostMoves := m }) hf hb hr rfl]
  refine (acceptWord_illegal he _).trans ?_
  simp [raiseFault, hf, hb]

/-- Settles O9: the word by its fields, the step by the acceptance of a command's word, the lengths by the check of R124
and the pinned rows, the example by the pinned entry 1. -/
theorem encodeRule : Obligations.EncodeRule := by
  unfold Obligations.EncodeRule
  refine ⟨fun v => decodeCmd_encodeCmd (.encode v), exec_encode,
    fun v s rest m hready hruns => step_commandWord (i := .encode v) hready hruns,
    fun s w rest m hready hruns _ hrsv =>
      step_illegalWord hready hruns ((decodeCmd_eq_reservedField_iff w).mpr hrsv), ?_, ?_, ?_⟩
  · intro v s hT
    obtain ⟨hlen, hrange, _⟩ := (tableOk_iff s.rom).mp hT
    exact ⟨(hlen v).1, (hlen v).2, hrange v⟩
  · intro v s hT
    obtain ⟨hzero, _, hlast, _⟩ := (pinnedRows_iff s.rom).mp hT.2
    obtain ⟨hmin, hmax⟩ := (admissibleLengths s.rom hT).2 v
    exact ⟨hmin, hmax, by rw [hzero]; rfl, by rw [hlast]; rfl⟩
  · intro s t hT hready hsink h
    obtain ⟨_, hone, _⟩ := (pinnedRows_iff s.rom).mp hT.2
    rw [exec_encode] at h
    cases h
    refine ⟨?_, rfl, congrArg RomEntry.code hone, congrArg RomEntry.bits hone, statusWord_of_result hready rfl rfl⟩
    simp [hsink, hone]

end Sys2Proof.Machine
end

section
/-! The run of one DECODE on a source that begins with a symbol's code (43_decoder.md R153), and the round trip of
ENCODE and DECODE (42_encoder.md R142). -/

namespace Sys2Proof.Machine

/-- The micro-step at a leaf, in a step in which the host does nothing: the walk ends with the leaf's symbol (R151). -/
theorem step_leaf {s : State} {v : Symbol} (hm : s.hostMoves = []) (hf : s.fault = .noFault) (hb : s.busy = true)
    (hleaf : leafTest s.rom s.walkP s.walkN = some v) :
    step s = .next (endWalk (setResult v s.walkP s.walkN s)) := by
  rw [step_alone hm hf, coreStep_busy hf hb, decStep_leaf hleaf]

/-- A walk begun at the root on a source that starts with the code of `v` reads the code and ends at the leaf of `v`. -/
theorem run_walk_code {s : State} {v : Symbol} {t : BitString} (hT : tableOk s.rom = true) (hf : s.fault = .noFault)
    (hb : s.busy = true) (hm : s.hostMoves = []) (hp : s.walkP = 0#32) (hn : s.walkN = 0#6)
    (hsrc : s.src = codeString (romRead s.rom v) ++ t) :
    Host.Core.run Sys2Proof.core ((romRead s.rom v).bits.toNat + 1) s = .next
      (endWalk (setResult v (romRead s.rom v).code (romRead s.rom v).bits { s with src := t })) := by
  obtain ⟨_, _, hfree, _⟩ := (tableOk_iff s.rom).mp hT
  have hroot : walkPath s = [] := by simp [walkPath, hn]
  obtain ⟨p, n, hlt, hpath, _, hrun⟩ := run_walk (codeString (romRead s.rom v)) s t hT hf hb hm (by simp [hp, hn])
    ⟨v, by simp [hroot]⟩ hsrc fun u hu => by
      rw [hroot, List.nil_append] at hu ⊢
      rw [eq_of_codes_prefix hfree hu List.prefix_rfl]
  rw [hroot, List.nil_append] at hpath
  have hleaf : leafTest s.rom p n = some v := (leafTest_eq_some_iff hT hlt).mpr hpath.symm
  rw [codeString_length] at hrun
  have hstep := step_leaf (s := { s with walkP := p, walkN := n, src := t }) hm hf hb hleaf
  rw [run_add hrun, run_succ hstep, run_zero, romRead_of_leafTest hleaf]
  rfl

/-- A ready port with a DECODE oldest, in a step after which the host does nothing more, on a source that starts with
the code of `v`: the command ends at `v` and leaves the rest of the source (R153). -/
theorem run_decode {s : State} {v : Symbol} {t : BitString} {rest : List HostRequest} (hT : tableOk s.rom = true)
    (hready : cmdReady s = true) (hruns : CoreRuns s (.word (encodeCmd .decode) :: rest) [])
    (hsrc : s.src = codeString (romRead s.rom v) ++ t) :
    Host.Core.run Sys2Proof.core (1 + (romRead s.rom v).bits.toNat + 1) s = .next
      { s with resSym := v, resCode := (romRead s.rom v).code, resBits := (romRead s.rom v).bits,
               resValid := true, eos := false, walkP := 0#32, walkN := 0#6, src := t, pending := rest,
               hostMoves := [] } := by
  obtain ⟨hb, _, hf⟩ := (cmdReady_iff s).mp hready
  have hstep := (step_commandWord hready hruns).trans (exec_decode _)
  have hwalk := run_walk_code (s := startWalk (clearFlags { s with pending := rest, hostMoves := [] }))
    hT hf rfl rfl rfl rfl hsrc
  rw [Nat.add_assoc, Nat.add_comm, run_succ hstep]
  refine hwalk.trans ?_
  simp [endWalk, setResult, startWalk, clearFlags, hb]

/-- The host's `SRC <- SINK` between commands is a step of its own (R70; log entry 5). -/
theorem step_sourceFromSink {s : State} {m : List HostMove} (hb : s.busy = false)
    (hm : s.hostMoves = .sourceFromSink :: m) : step s = .next { s with src := s.sink, hostMoves := m } := by
  obtain ⟨_, hcopy, _⟩ := (hostStringMoves s [] m).1 hb
  exact hcopy hm

/-- ENCODE presented to an empty ready port, and then `SRC <- SINK` by the host (R140, R70). -/
theorem run_encode_copy {s : State} {v : Symbol} {m : List HostMove} (hready : cmdReady s = true) (hp : s.pending = [])
    (hm : s.hostMoves = .present (.word (encodeCmd (.encode v))) :: .sourceFromSink :: m) :
    Host.Core.run Sys2Proof.core 2 s = .next
      { s with resSym := v, resCode := (romRead s.rom v).code, resBits := (romRead s.rom v).bits,
               resValid := true, eos := false, sink := s.sink ++ codeString (romRead s.rom v),
               src := s.sink ++ codeString (romRead s.rom v), hostMoves := m } := by
  obtain ⟨hb, _, _⟩ := (cmdReady_iff s).mp hready
  have hruns : CoreRuns s (.word (encodeCmd (.encode v)) :: s.pending) (.sourceFromSink :: m) :=
    .inr (.inr ⟨_, hm, by simp [hp]⟩)
  rw [run_succ ((step_commandWord hready hruns).trans (exec_encode v _))]
  refine run_succ (step_sourceFromSink ?_ rfl) 0
  exact hb

/-- Settles O17: DECODE on the symbol's own code, which in the second run is what ENCODE appended to the empty sink. -/
theorem roundTrip : Obligations.RoundTrip := by
  unfold Obligations.RoundTrip
  constructor
  · intro s v t hT hready hp hm hsrc
    obtain ⟨hb, _, _⟩ := (cmdReady_iff s).mp hready
    exact ⟨_, run_decode hT hready (.inl ⟨hm, hp.symm, rfl⟩) hsrc, hb, rfl, rfl, rfl, rfl⟩
  · intro s v hT hready hp hsink hm
    have hsteps : 3 + (romRead s.rom v).bits.toNat + 1 = 2 + (1 + (romRead s.rom v).bits.toNat + 1) := by omega
    rw [hsteps, run_add (run_encode_copy hready hp hm), hsink, List.nil_append]
    refine run_decode (v := v) (t := []) (rest := s.pending) ?_ ?_ (.inr (.inr ⟨_, rfl, ?_⟩)) ?_
    · exact hT
    · exact hready
    · simp [hp]
    · simp

end Sys2Proof.Machine
end

section
/-! The decoder's micro-step as a step of the machine (43_decoder.md R151): its four outcomes, what each of them leaves
alone, and the one of them that the invariant excludes (R155). -/

namespace Sys2Proof.Machine

/-- During a walk a step that the host leaves to the core is a micro-step; what the host presents is held (R200). -/
theorem step_walking {s : State} {p : List HostRequest} {m : List HostMove} (hf : s.fault = .noFault)
    (hb : s.busy = true) (hruns : CoreRuns s p m) :
    step s = .next (decStep { s with pending := p, hostMoves := m }) :=
  (step_of_coreRuns hruns hf).trans (coreStep_busy hf hb)

/-- The bit that a walk shifts in, in the two ways it is written. -/
theorem setWidth_ofBool_eq_ite (b : Bool) : (BitVec.ofBool b).setWidth 32 = if b then 1#32 else 0#32 := by
  cases b <;> rfl

/-- The depth guard of a core that no fault holds (R151): the walk registers stay as they are (log entry 14). -/
theorem decStep_guard_noFault {s : State} (hf : s.fault = .noFault)
    (hleaf : leafTest s.rom s.walkP s.walkN = none) (hdeep : s.walkN = 32#6) :
    decStep s = { s with fault := .malformedTable, busy := false } := by
  rw [decStep_guard hleaf hdeep]
  simp [raiseFault, hf]

/-- Settles O12, outcome by outcome. -/
theorem microStep : Obligations.MicroStep := by
  unfold Obligations.MicroStep
  intro s p m hf hb hruns
  have hstep {t : State} (hd : decStep { s with pending := p, hostMoves := m } = t) : step s = .next t :=
    hd ▸ step_walking hf hb hruns
  refine ⟨fun v hleaf => hstep (decStep_leaf hleaf), fun hleaf hdeep => hstep (decStep_guard_noFault hf hleaf hdeep),
    fun hleaf hdepth hsrc => hstep (decStep_endOfStream hleaf hdepth hsrc), fun b rest hleaf hdepth hsrc => ?_⟩
  rw [setWidth_ofBool_eq_ite]
  exact hstep (decStep_bit hleaf hdepth hsrc)

theorem decStep_hostMoves (s : State) : (decStep s).hostMoves = s.hostMoves := by
  rcases decStep_cases s with ⟨v, _, hd⟩ | ⟨_, _, hd⟩ | ⟨_, _, _, hd⟩ | ⟨b, rest, _, _, _, hd⟩ <;> rw [hd] <;> rfl

theorem decStep_sink (s : State) : (decStep s).sink = s.sink := by
  rcases decStep_cases s with ⟨v, _, hd⟩ | ⟨_, _, hd⟩ | ⟨_, _, _, hd⟩ | ⟨b, rest, _, _, _, hd⟩ <;> rw [hd] <;> rfl

/-- Only a leaf gives a symbol (R25, R26, R36). -/
theorem decStep_result_of_notLeaf {s : State} (hleaf : leafTest s.rom s.walkP s.walkN = none) :
    (decStep s).resSym = s.resSym ∧ (decStep s).resCode = s.resCode ∧ (decStep s).resValid = s.resValid := by
  rcases decStep_cases s with ⟨v, hv, _⟩ | ⟨_, _, hd⟩ | ⟨_, _, _, hd⟩ | ⟨b, rest, _, _, _, hd⟩
  · exact absurd (hleaf.symm.trans hv) nofun
  all_goals
    rw [hd]
    exact ⟨rfl, rfl, rfl⟩

/-- Settles O13, from the frame of the micro-step. -/
theorem microStepFrame : Obligations.MicroStepFrame := by
  unfold Obligations.MicroStepFrame
  intro s t p m hf hb hruns h
  rw [step_walking hf hb hruns] at h
  cases h
  obtain ⟨hrom, hready, _, hsrc⟩ := coreFrame_decStep { s with pending := p, hostMoves := m }
  exact ⟨hrom, hready, decStep_sink _, decStep_pending _, decStep_hostMoves _, hsrc,
    fun hleaf => decStep_result_of_notLeaf (s := { s with pending := p, hostMoves := m }) hleaf⟩

/-! ### Under the invariant -/

theorem Inv.noFault_of_busy {s : State} (h : Inv s) (hb : s.busy = true) : s.fault = .noFault := by
  by_contra hf
  exact absurd (hb.symm.trans (h.ready.held hf)) (by decide)

/-- A walk at no leaf is less deep than the longest code, and so than the depth guard (R155). -/
theorem Inv.walkN_lt_of_notLeaf {s : State} (h : Inv s) (hb : s.busy = true)
    (hleaf : leafTest s.rom s.walkP s.walkN = none) : s.walkN.toNat < 32 ∧ s.walkN.toNat < longestCode s.rom := by
  obtain ⟨hlt, v, hchild⟩ := h.child_of_notLeaf (h.ready.ready_of_noFault (h.noFault_of_busy hb)) hleaf true
  have hpath : s.walkN.toNat + 1 ≤ (romRead s.rom v).bits.toNat := by simpa [walkPath] using hchild.length_le
  exact ⟨hlt, hpath.trans ((longestCode_le_iff s.rom _).mp le_rfl v)⟩

theorem Inv.walkN_ne_32_of_notLeaf {s : State} (h : Inv s) (hb : s.busy = true)
    (hleaf : leafTest s.rom s.walkP s.walkN = none) : s.walkN ≠ 32#6 := by
  intro hn
  have hlt := (h.walkN_lt_of_notLeaf hb hleaf).1
  rw [hn] at hlt
  exact absurd hlt (by decide)

/-- Without the depth guard a micro-step ends the walk with a symbol or with EndOfStream, or reads a bit at a node
less deep than the longest code. -/
theorem Inv.decStep_cases {s : State} (h : Inv s) (hb : s.busy = true) :
    ((Machine.decStep s).busy = false ∧ (Machine.decStep s).fault = .noFault ∧
      ((Machine.decStep s).resValid = true ∨ (Machine.decStep s).eos = true)) ∨
    (s.walkN.toNat < 32 ∧ s.walkN.toNat < longestCode s.rom ∧
      ∃ b rest, Machine.decStep s = Machine.advanceWalk b { s with src := rest }) := by
  have hf := h.noFault_of_busy hb
  rcases Machine.decStep_cases s with ⟨v, _, hd⟩ | ⟨hleaf, hn, _⟩ | ⟨_, _, _, hd⟩ | ⟨b, rest, hleaf, _, _, hd⟩
  · rw [hd]
    exact .inl ⟨rfl, hf, .inl rfl⟩
  · exact absurd hn (h.walkN_ne_32_of_notLeaf hb hleaf)
  · rw [hd]
    exact .inl ⟨rfl, hf, .inr rfl⟩
  · obtain ⟨hlt, hlong⟩ := h.walkN_lt_of_notLeaf hb hleaf
    exact .inr ⟨hlt, hlong, b, rest, hd⟩

/-- Settles O46: of the outcomes the invariant leaves, none raises a fault. -/
theorem depthGuardNeverFires : Obligations.DepthGuardNeverFires := by
  unfold Obligations.DepthGuardNeverFires
  intro s p m h hb hruns
  have hf := h.noFault_of_busy hb
  refine ⟨fun t ht => ?_, h.walkN_ne_32_of_notLeaf hb⟩
  rw [step_walking hf hb hruns] at ht
  cases ht
  rcases (h.withExternal s.sink s.src p m).decStep_cases hb with ⟨_, hf', _⟩ | ⟨_, _, b, rest, hd⟩
  · exact hf'
  · rw [hd]
    exact hf

end Sys2Proof.Machine
end

section
/-! Every walk ends (43_decoder.md R156): each micro-step that does not end it goes one level down, and no level is below
the longest code. -/

namespace Sys2Proof.Machine

/-- A host that only ticks and presents requests leaves every step to the core. -/
theorem exists_coreRuns {s : State} (h : ∀ m ∈ s.hostMoves, m = .tick ∨ ∃ r, m = .present r) :
    ∃ p m, CoreRuns s p m ∧ ∀ x ∈ m, x = .tick ∨ ∃ r, x = .present r := by
  cases hm : s.hostMoves with
  | nil => exact ⟨s.pending, [], .inl ⟨hm, rfl, rfl⟩, by simp⟩
  | cons x m =>
    rw [hm, List.forall_mem_cons] at h
    obtain ⟨rfl | ⟨r, rfl⟩, hrest⟩ := h
    · exact ⟨s.pending, m, .inr (.inl ⟨hm, rfl⟩), hrest⟩
    · exact ⟨s.pending ++ [r], m, .inr (.inr ⟨r, hm, rfl⟩), hrest⟩

/-- One step of a walk: it ends the walk, or leaves a walk one level deeper, no deeper than the longest code. -/
theorem Inv.step_walk {s : State} (h : Inv s) (hb : s.busy = true)
    (hmoves : ∀ m ∈ s.hostMoves, m = .tick ∨ ∃ r, m = .present r) :
    ∃ u, step s = .next u ∧
      ((u.busy = false ∧ u.fault = .noFault ∧ (u.resValid = true ∨ u.eos = true)) ∨
        (Inv u ∧ u.busy = true ∧ (∀ m ∈ u.hostMoves, m = .tick ∨ ∃ r, m = .present r) ∧ u.rom = s.rom ∧
          u.walkN.toNat = s.walkN.toNat + 1 ∧ s.walkN.toNat < longestCode s.rom)) := by
  obtain ⟨p, m, hruns, hmoves'⟩ := exists_coreRuns hmoves
  have hf := h.noFault_of_busy hb
  have h' := h.withExternal s.sink s.src p m
  refine ⟨_, step_walking hf hb hruns, (h'.decStep_cases hb).imp_right ?_⟩
  rintro ⟨hlt, hlong, b, rest, hbit⟩
  have hnext := h'.decStep hf hb
  rw [hbit] at hnext ⊢
  exact ⟨hnext, hb, hmoves', rfl, toNat_len_succ hlt, hlong⟩

/-- By induction on a bound `d` of the levels that the longest code leaves below the walk. -/
theorem Inv.walk_ends (d : Nat) : ∀ {s : State}, Inv s → s.busy = true →
    (∀ m ∈ s.hostMoves, m = .tick ∨ ∃ r, m = .present r) → longestCode s.rom ≤ s.walkN.toNat + d →
    ∃ k u, k ≤ d + 1 ∧ Host.Core.run Sys2Proof.core k s = .next u ∧ u.busy = false ∧ u.fault = .noFault ∧
      (u.resValid = true ∨ u.eos = true) := by
  induction d with
  | zero =>
    intro s h hb hmoves hd
    obtain ⟨u, hstep, hend | ⟨_, _, _, _, _, hlong⟩⟩ := h.step_walk hb hmoves
    · exact ⟨1, u, le_rfl, run_succ hstep 0, hend⟩
    · exact absurd hlong (not_lt.mpr hd)
  | succ d ih =>
    intro s h hb hmoves hd
    obtain ⟨u, hstep, hend | ⟨hu, hub, humoves, hrom, hlevel, _⟩⟩ := h.step_walk hb hmoves
    · exact ⟨1, u, by omega, run_succ hstep 0, hend⟩
    · obtain ⟨k, t, hk, hrun, hend⟩ := ih hu hub humoves (by rw [hrom]; omega)
      exact ⟨k + 1, t, by omega, (run_succ hstep k).trans hrun, hend⟩

/-- Settles O18: the root has as many levels below it as the longest code has bits, and every other node fewer. -/
theorem decodeTerminates : Obligations.DecodeTerminates := by
  unfold Obligations.DecodeTerminates
  exact ⟨fun s h hb hmoves => h.walk_ends (longestCode s.rom) hb hmoves (Nat.le_add_left _ _),
    fun T hT => congrArg (· + 1) (admissibleLengths T hT).1⟩

end Sys2Proof.Machine
end

section
/-! DECODE from its acceptance on (43_decoder.md R150, R152 to R154, R157, R158): the walk along the source, its end at a
symbol or at EndOfStream, and several DECODE commands in a row. -/

namespace Sys2Proof.Machine

/-- Settles O10, from the meaning of DECODE and the acceptance of a command's word. -/
theorem decodeAccepts : Obligations.DecodeAccepts := by
  unfold Obligations.DecodeAccepts
  exact ⟨decodeCmd_encodeCmd .decode, exec_decode, fun s rest m => step_commandWord (i := .decode)⟩

/-- After its acceptance a DECODE walks along the bits `x` of the source while no code is a proper prefix of them. -/
theorem run_decode_walk {s : State} {x y : BitString} {rest : List HostRequest} (hT : tableOk s.rom = true)
    (hready : cmdReady s = true) (hruns : CoreRuns s (.word (encodeCmd .decode) :: rest) []) (hsrc : s.src = x ++ y)
    (hno : ∀ v, codeString (romRead s.rom v) <+: x → codeString (romRead s.rom v) = x) :
    ∃ p n, p.toNat < 2 ^ n.toNat ∧ bitstr p n.toNat = x ∧ (∃ v, x <+: codeString (romRead s.rom v)) ∧
      Host.Core.run Sys2Proof.core (1 + x.length) s = .next
        { s with resValid := false, eos := false, busy := true, walkP := p, walkN := n, src := y, pending := rest,
                 hostMoves := [] } := by
  obtain ⟨_, _, hf⟩ := (cmdReady_iff s).mp hready
  have hstep := (step_commandWord hready hruns).trans (exec_decode _)
  obtain ⟨p, n, hlt, hpath, hnode, hrun⟩ :=
    run_walk x (startWalk (clearFlags { s with pending := rest, hostMoves := [] })) y hT hf rfl rfl Nat.one_pos
      ⟨0#8, List.nil_prefix⟩ hsrc hno
  change bitstr p n.toNat = x at hpath
  refine ⟨p, n, hlt, hpath, hpath ▸ hnode, ?_⟩
  rw [Nat.add_comm, run_succ hstep, hrun]
  rfl

/-- Settles O15: the walk along `x` ends at the node of `x`, and a leaf is where a code is the path. -/
theorem walkIsBitsRead : Obligations.WalkIsBitsRead := by
  unfold Obligations.WalkIsBitsRead
  intro s x y hT hready hp hm hsrc hno
  obtain ⟨p, n, hlt, hpath, _, hrun⟩ := run_decode_walk hT hready (.inl ⟨hm, hp.symm, rfl⟩) hsrc hno
  refine ⟨_, hrun, hpath, ?_, rfl, rfl, fun v => ?_⟩
  · rw [← hpath, bitstr_length]
  · rw [← hpath]
    exact leafTest_eq_some_iff hT hlt

/-! ### The end at a symbol -/

/-- The root is no leaf: no code is empty (R102, R153). -/
theorem leafTest_root {T : CodeTable} (hT : tableOk T = true) : leafTest T 0#32 0#6 = none := by
  obtain ⟨hlen, _⟩ := (tableOk_iff T).mp hT
  refine leafTest_eq_none.mpr fun v hv => ?_
  have hpos := (hlen v).1
  rw [hv] at hpos
  exact absurd hpos (by decide)

/-- Settles O14, from the run of one DECODE on a code and the lengths of R102. -/
theorem decodeSucceeds : Obligations.DecodeSucceeds := by
  unfold Obligations.DecodeSucceeds
  intro s v t hT hready hp hm hsrc
  obtain ⟨hlen, _⟩ := (tableOk_iff s.rom).mp hT
  refine ⟨?_, (hlen v).1, leafTest_root hT⟩
  rw [run_decode hT hready (.inl ⟨hm, hp.symm, rfl⟩) hsrc, hm]

/-- A DECODE takes its symbol's code off the source (R153), and leaves the port ready for the next word and the ROM as
it was. -/
theorem run_decodeWord {s : State} {v : Symbol} {t : BitString} {rest : List HostRequest} (hT : tableOk s.rom = true)
    (hready : cmdReady s = true) (hm : s.hostMoves = []) (hp : s.pending = .word 0x3000#16 :: rest)
    (hsrc : s.src = codeString (romRead s.rom v) ++ t) :
    ∃ k u, Host.Core.run Sys2Proof.core k s = .next u ∧ cmdReady u = true ∧ u.hostMoves = [] ∧ u.pending = rest ∧
      u.rom = s.rom ∧ u.resValid = true ∧ u.resSym = v ∧ u.src = t :=
  ⟨_, _, run_decode hT hready (.inl ⟨hm, hp.symm, rfl⟩) hsrc, hready, rfl, rfl, rfl, rfl, rfl, rfl⟩

/-- Settles O20, by induction on the symbols before the last: each DECODE leaves the source at the next code. -/
theorem decodeSequence : Obligations.DecodeSequence := by
  unfold Obligations.DecodeSequence
  intro vs v t
  induction vs with
  | nil =>
    intro s hT hready hm hp hsrc
    obtain ⟨k, u, hrun, huready, _, hport, _, hend⟩ := run_decodeWord hT hready hm hp (v := v) (by simpa using hsrc)
    exact ⟨k, u, hrun, ((cmdReady_iff u).mp huready).1, hport, hend⟩
  | cons w vs ih =>
    intro s hT hready hm hp hsrc
    rw [List.cons_append, List.flatMap_cons, List.append_assoc] at hsrc
    obtain ⟨j, r, hfirst, hrready, hrm, hrp, hrom, _, _, hrsrc⟩ := run_decodeWord hT hready hm hp hsrc
    obtain ⟨k, u, hrun, hend⟩ := ih r (hrom ▸ hT) hrready hrm hrp (by rw [hrsrc, hrom])
    exact ⟨j + k, u, (run_add hfirst).trans hrun, hend⟩

/-! ### The end at EndOfStream -/

/-- The micro-step at an empty source, in a step in which the host does nothing (R151). -/
theorem step_endOfStream {s : State} (hm : s.hostMoves = []) (hf : s.fault = .noFault) (hb : s.busy = true)
    (hleaf : leafTest s.rom s.walkP s.walkN = none) (hdepth : s.walkN ≠ 32#6) (hsrc : s.src = []) :
    step s = .next (endWalk (setEndOfStream s)) := by
  rw [step_alone hm hf, coreStep_busy hf hb, decStep_endOfStream hleaf hdepth hsrc]

/-- A DECODE on a source that no code begins reads all of it, which is fewer than 32 bits, and ends with EndOfStream. -/
theorem run_decode_endOfStream {s : State} {rest : List HostRequest} (hT : tableOk s.rom = true)
    (hready : cmdReady s = true) (hruns : CoreRuns s (.word (encodeCmd .decode) :: rest) [])
    (hno : ∀ v, ¬ codeString (romRead s.rom v) <+: s.src) :
    s.src.length < 32 ∧ Host.Core.run Sys2Proof.core (1 + s.src.length + 1) s = .next
      { s with resBits := BitVec.ofNat 6 s.src.length, resValid := false, eos := true, walkP := 0#32, walkN := 0#6,
               src := [], pending := rest, hostMoves := [] } := by
  obtain ⟨hb, _, hf⟩ := (cmdReady_iff s).mp hready
  obtain ⟨p, n, hlt, hpath, hnode, hrun⟩ :=
    run_decode_walk hT hready hruns (List.append_nil s.src).symm fun v hv => absurd hv (hno v)
  have hlen : s.src.length = n.toNat := by rw [← hpath, bitstr_length]
  have hleaf : leafTest s.rom p n = none := Option.eq_none_iff_forall_ne_some.mpr fun v hv =>
    hno v (by rw [(leafTest_eq_some_iff hT hlt).mp hv, hpath])
  obtain ⟨hdepth, _⟩ := exists_code_through_child hT true hlt (hpath ▸ hnode) hleaf
  have hne : n ≠ 32#6 := by
    rintro rfl
    exact absurd hdepth (by decide)
  have hstep := step_endOfStream rfl hf rfl hleaf hne rfl
    (s := { s with resValid := false, eos := false, busy := true, walkP := p, walkN := n, src := [], pending := rest,
                   hostMoves := [] })
  refine ⟨hlen ▸ hdepth, ?_⟩
  rw [run_add hrun, hlen, BitVec.ofNat_toNat, BitVec.setWidth_eq]
  refine (run_succ hstep 0).trans ?_
  simp [endWalk, setEndOfStream, hb, run_zero]

/-- Settles O16, from the run of one DECODE on such a source. -/
theorem decodeEndOfStream : Obligations.DecodeEndOfStream := by
  unfold Obligations.DecodeEndOfStream
  intro s hT hready hp hm hno
  obtain ⟨hlen, hrun⟩ := run_decode_endOfStream hT hready (.inl ⟨hm, hp.symm, rfl⟩) hno
  exact ⟨by rw [hrun, hm], Nat.le_of_lt_succ hlen⟩

/-! ### The corner cases -/

/-- No code begins a proper prefix of a code (R104). -/
theorem not_code_prefix_of_properPrefix {T : CodeTable} (hfree : CodesPrefixFree T) {v : Symbol} {x : BitString}
    (hpre : x <+: codeString (romRead T v)) (hne : x ≠ codeString (romRead T v)) (u : Symbol) :
    ¬ codeString (romRead T u) <+: x := by
  intro hu
  obtain rfl : u = v := eq_of_codes_prefix hfree (hu.trans hpre) List.prefix_rfl
  exact hne (hpre.eq_of_length_le hu.length_le)

/-- Settles O21: a source is a proper prefix of a pinned code, and so the stream ends in it, or starts with one. -/
theorem decodeCorners : Obligations.DecodeCorners := by
  unfold Obligations.DecodeCorners
  intro s ⟨hT, hpins⟩ hready hp hm ends gives
  obtain ⟨hb, _, _⟩ := (cmdReady_iff s).mp hready
  obtain ⟨_, _, hfree, _⟩ := (tableOk_iff s.rom).mp hT
  obtain ⟨hzero, hone, hlast, _, _⟩ := (pinnedRows_iff s.rom).mp hpins
  have hruns : CoreRuns s [.word (encodeCmd .decode)] [] := .inl ⟨hm, hp.symm, rfl⟩
  have hends {x : BitString} {v : Symbol} {e : RomEntry} (hentry : romRead s.rom v = e) (hpre : x <+: codeString e)
      (hne : x ≠ codeString e) (hsrc : s.src = x) : ends true (BitVec.ofNat 6 x.length) [] := by
    subst hentry hsrc
    obtain ⟨_, hrun⟩ := run_decode_endOfStream hT hready hruns (not_code_prefix_of_properPrefix hfree hpre hne)
    exact ⟨_, _, hrun, hb, rfl, rfl, rfl, rfl, rfl, fun _ => rfl⟩
  have hgives {v : Symbol} {e : RomEntry} {t : BitString} (hentry : romRead s.rom v = e)
      (hsrc : s.src = codeString e ++ t) : gives v e.code e.bits t := by
    subst hentry
    exact ⟨_, _, run_decode hT hready hruns hsrc, hb, rfl, rfl, rfl, rfl, rfl, rfl, rfl⟩
  exact ⟨hends hzero (by decide) (by decide), hends hzero (by decide) (by decide), hends hone (by decide) (by decide),
    hends hone (by decide) (by decide), hgives hzero, hgives hzero, hgives hone,
    hends hlast (by decide) (by decide), hgives hlast⟩

end Sys2Proof.Machine
end

section
/-! Faults (60_exceptions.md R171 to R177): raising one keeps the first and ends the command, the two that an acceptance
raises, and the core held by one, which a reset alone changes. -/

namespace Sys2Proof.Machine

/-! ### Raising a fault -/

/-- Settles O24, by whether a fault is set already. -/
theorem raiseFaultRule : Obligations.RaiseFaultRule := by
  unfold Obligations.RaiseFaultRule
  intro f s
  exact ⟨fun hf => (raiseFault_fault f s).trans (if_pos hf), fun hf => (raiseFault_fault f s).trans (if_neg hf),
    raiseFault_busy f s, rfl⟩

theorem raiseFault_of_cmdReady {s : State} (h : cmdReady s = true) (f : FaultCode) :
    raiseFault f s = { s with fault := f } := by
  obtain ⟨hb, _, hf⟩ := (cmdReady_iff s).mp h
  simp [raiseFault, hf, hb]

/-! ### The two faults of an acceptance -/

/-- Settles O25: an illegal word is one that `decodeCmd` refuses. -/
theorem illegalCommandRule : Obligations.IllegalCommandRule := by
  unfold Obligations.IllegalCommandRule
  exact fun _ _ _ _ _ hready he hruns => step_illegalWord hready hruns he

/-- A ready port accepts its oldest request in a step that the host leaves to the core (R200). -/
theorem step_accept {s : State} {r : HostRequest} {rest : List HostRequest} {m : List HostMove}
    (h : cmdReady s = true) (hruns : CoreRuns s (r :: rest) m) :
    step s = acceptRequest r { s with pending := rest, hostMoves := m } := by
  obtain ⟨hb, hr, hf⟩ := (cmdReady_iff s).mp h
  exact (step_of_coreRuns hruns hf).trans
    (coreStep_accept (s := { s with pending := r :: rest, hostMoves := m }) hf hb hr rfl)

theorem acceptInt_symbol (command : Symbol → Instr) (v : Symbol) (s : State) :
    acceptInt command v.toNat s = exec (command v) s := by
  have hv : symbolOfNat v.toNat = some v := (symbolOfNat_eq_some_iff _ v).mpr rfl
  simp only [acceptInt, intOperand, hv, Option.map_some]
  exact acceptWord_legal (decodeCmd_encodeCmd _) s

theorem acceptInt_outOfRange (command : Symbol → Instr) {n : Nat} (hn : 256 ≤ n) {s : State}
    (h : cmdReady s = true) : acceptInt command n s = .next { s with fault := .domainViolation } := by
  have hnone : symbolOfNat n = none := (symbolOfNat_eq_none_iff n).mpr hn
  simp only [acceptInt, intOperand, hnone, Option.map_none, raiseFault_of_cmdReady h]

theorem exec_fault {i : Instr} {s t : State} (h : exec i s = .next t) : t.fault = s.fault := by
  rcases exec_next_cases h with ⟨v, rfl⟩ | ⟨v, rfl⟩ | ⟨_, rfl⟩ <;> rfl

/-- A command keeps `FAULT`, and an illegal word sets another code. -/
theorem acceptWord_domainViolation {w : CmdWord} {s t : State} (h : acceptWord w s = .next t)
    (ht : t.fault = .domainViolation) : s.fault = .domainViolation := by
  cases hd : decodeCmd w with
  | ok i =>
    rw [acceptWord_legal hd] at h
    rw [← exec_fault h, ht]
  | error e =>
    rw [acceptWord_illegal hd] at h
    cases h
    rw [raiseFault_fault] at ht
    split_ifs at ht
    exact ht

theorem wellFormed_eq_false {l : AsmLine} {e : AsmError} (h : l.toInstr = .error e) : l.WellFormed = false := by
  simp [AsmLine.WellFormed, h]

/-- Settles O26: a call at a ready port is accepted by the symbol domain, which the assembler's lines share. -/
theorem domainViolationRule : Obligations.DomainViolationRule := by
  unfold Obligations.DomainViolationRule
  refine ⟨fun s n rest m hready hn hruns => ?_, fun s v rest m hready => ⟨fun hruns => ?_, fun hruns => ?_⟩,
    fun _ _ _ => acceptWord_domainViolation, fun n hn => ?_⟩
  · rcases hruns with hruns | hruns
    · exact (step_accept hready hruns).trans (acceptInt_outOfRange _ hn hready)
    · exact (step_accept hready hruns).trans (acceptInt_outOfRange _ hn hready)
  · exact (step_accept hready hruns).trans (acceptInt_symbol _ v _)
  · exact (step_accept hready hruns).trans (acceptInt_symbol _ v _)
  · obtain ⟨_, _, hrange, _⟩ := assemblerChecks
    obtain ⟨hlookup, hencode⟩ := hrange n hn
    exact ⟨wellFormed_eq_false hlookup, wellFormed_eq_false hencode⟩

/-! ### A core held by a fault -/

theorem cmdReady_of_held {s : State} (h : s.fault ≠ .noFault) : cmdReady s = false := by
  simp [cmdReady, h]

theorem quiescent_iff (s : State) :
    Quiescent s = true ↔ cmdReady s = true ∧ s.pending = [] ∧ ∀ m ∈ s.hostMoves, m.presents = false := by
  simp [Quiescent, and_assoc]

theorem quiescent_of_held {s : State} (h : s.fault ≠ .noFault) : Quiescent s = false := by
  simp [Quiescent, cmdReady_of_held h]

/-- What the port holds in a step that the host leaves to the core is what it held, and then what is presented. -/
theorem CoreRuns.exists_pending_append {s : State} {p : List HostRequest} {m : List HostMove} (h : CoreRuns s p m) :
    ∃ q, p = s.pending ++ q := by
  rcases h with ⟨_, rfl, _⟩ | ⟨_, rfl⟩ | ⟨r, _, rfl⟩
  · exact ⟨[], (List.append_nil _).symm⟩
  · exact ⟨[], (List.append_nil _).symm⟩
  · exact ⟨[r], rfl⟩

/-- Settles O27: of the three kinds of step, the core's own does nothing (R177), a reset is the host's, and the third
changes an external string only. -/
theorem faultSticky : Obligations.FaultSticky := by
  unfold Obligations.FaultSticky
  refine fun s hf => ⟨quiescent_of_held hf, cmdReady_of_held hf, fun t h => ?_⟩
  rcases step_cases h with ⟨p, m, hruns, hc⟩ | hreset | ⟨_, x, y, m, rfl⟩
  · cases (coreStep_held (s := { s with pending := p, hostMoves := m }) hf).symm.trans hc
    exact .inr ⟨hruns.exists_pending_append, rfl⟩
  · exact .inl hreset
  · exact .inr ⟨⟨[], (List.append_nil _).symm⟩, rfl⟩

theorem step_last {s : State} (h : s.hostMoves = []) : step s = lastStep s := by simp [step, h]

/-- Settles O28, code by code. -/
theorem heldCoreStops : Obligations.HeldCoreStops := by
  unfold Obligations.HeldCoreStops
  intro s hm
  rw [step_last hm]
  exact ⟨fun hf => by simp [lastStep, hf], fun hf => by simp [lastStep, hf], fun hf => by simp [lastStep, hf]⟩

end Sys2Proof.Machine
end

section
/-! The precedence of a reset over the core's own step (R179, R190; log entries 4 and 6), and the idle core (R188,
R205). -/

namespace Sys2Proof.Machine

theorem step_reset {s : State} {m : List HostMove} (h : s.hostMoves = .reset :: m) :
    step s = .next (resetStep { s with hostMoves := m }) := step_move h

/-- The request presented in the step of a reset reaches the port first, behind those held there. -/
theorem step_presentAtReset {s : State} {r : HostRequest} {m : List HostMove}
    (h : s.hostMoves = .presentAtReset r :: m) :
    step s = .next (resetStep { s with pending := s.pending ++ [r], hostMoves := m }) := step_move h

/-- Settles O33, by what the port would have accepted in the step. -/
theorem resetPrecedence : Obligations.ResetPrecedence := by
  unfold Obligations.ResetPrecedence
  intro s m hm
  rw [step_reset hm]
  refine ⟨fun hready => ?_, fun hp => ?_, fun r rest hready hp => ?_⟩
  · exact congrArg _ (resetStep_notReady (s := { s with hostMoves := m }) hready)
  · exact congrArg _ (resetStep_empty (s := { s with hostMoves := m }) hp)
  · exact congrArg _ (resetStep_discards (s := { s with hostMoves := m }) hready hp)

/-- Settles O34: with the presented request at its end the port is not empty, so a ready one discards its first. -/
theorem requestInResetStep : Obligations.RequestInResetStep := by
  unfold Obligations.RequestInResetStep
  intro s r m hm
  rw [step_presentAtReset hm]
  refine ⟨fun hready => ?_, fun hready hp => ?_, fun r₀ rest hready hp => ?_⟩
  · exact congrArg _ (resetStep_notReady (s := { s with pending := s.pending ++ [r], hostMoves := m }) hready)
  · have hport : s.pending ++ [r] = r :: s.pending := by simp [hp]
    exact congrArg _ (resetStep_discards (s := { s with pending := s.pending ++ [r], hostMoves := m }) hready hport)
  · have hport : s.pending ++ [r] = r₀ :: (rest ++ [r]) := by simp [hp]
    exact congrArg _ (resetStep_discards (s := { s with pending := s.pending ++ [r], hostMoves := m }) hready hport)

/-- Settles O37: a ready port with no request has nothing to accept, and a tick presents none. -/
theorem quiescentStays : Obligations.QuiescentStays := by
  unfold Obligations.QuiescentStays
  intro s h
  obtain ⟨hready, hp, hmoves⟩ := (quiescent_iff s).mp h
  obtain ⟨hb, hr, hf⟩ := (cmdReady_iff s).mp hready
  refine ⟨coreStep_idle hf hb hr hp, fun hm => ?_, fun m hm => ⟨?_, ?_⟩⟩
  · exact (step_alone hm hf).trans (coreStep_idle hf hb hr hp)
  · exact (step_move hm).trans (coreStep_idle (s := { s with hostMoves := m }) hf hb hr hp)
  · rw [hm, List.forall_mem_cons] at hmoves
    exact (quiescent_iff _).mpr ⟨hready, hp, hmoves.2⟩

end Sys2Proof.Machine
end

section
/-! The command port (R200): a ready one runs the oldest word's command, one that is not ready holds what it is given. -/

namespace Sys2Proof.Machine

/-- Settles O6: the port accepts its oldest request, and a legal word's acceptance is its command. -/
theorem stepRunsDecoded : Obligations.StepRunsDecoded := by
  unfold Obligations.StepRunsDecoded
  exact fun _ _ _ _ _ hready hruns hdecode => (step_accept hready hruns).trans (acceptWord_legal hdecode _)

/-- A micro-step does not look at the port. -/
theorem decStep_withPending (s : State) (p : List HostRequest) :
    decStep { s with pending := p } = { decStep s with pending := p } := by
  rcases decStep_cases s with ⟨v, hl, hd⟩ | ⟨hl, hn, hd⟩ | ⟨hl, hn, hs, hd⟩ | ⟨b, rest, hl, hn, hs, hd⟩ <;> rw [hd]
  · exact decStep_leaf hl
  · exact decStep_guard hl hn
  · exact decStep_endOfStream hl hn hs
  · exact decStep_bit hl hn hs

/-- With nothing to accept, the core's step is a micro-step or nothing (R151, R177, R188). -/
theorem coreStep_of_not_cmdReady {s : State} (h : cmdReady s = false) :
    coreStep s = .next (if s.fault = .noFault ∧ s.busy = true then decStep s else s) := by
  by_cases hwalk : s.fault = .noFault ∧ s.busy = true
  · rw [if_pos hwalk]
    exact coreStep_busy hwalk.1 hwalk.2
  · rw [if_neg hwalk]
    rcases coreStep_cases s with hc | ⟨hf, hb, _⟩ | ⟨_, _, hf, hb, hr, _, _⟩
    · exact hc
    · exact absurd ⟨hf, hb⟩ hwalk
    · exact absurd (h.symm.trans ((cmdReady_iff s).mpr ⟨hb, hr, hf⟩)) (by decide)

/-- Settles O35: the presented request changes the port alone, which the core's step then does not look at. -/
theorem requestHeld : Obligations.RequestHeld := by
  unfold Obligations.RequestHeld
  intro s r m hready hm
  rw [step_move hm, ← decStep_withPending]
  exact coreStep_of_not_cmdReady (s := { s with pending := s.pending ++ [r], hostMoves := m }) hready

end Sys2Proof.Machine
end

section
/-! What a reset leaves (R190 to R192): the model's first state, and the external strings as they were. -/

namespace Sys2Proof.Machine

/-- Settles O30: `STATUS` of the first state is that of its own reset. -/
theorem resetStateIsReset : Obligations.ResetStateIsReset := by
  unfold Obligations.ResetStateIsReset
  have hstatus := statusWord_resetCore State.reset
  rw [resetCore_reset] at hstatus
  exact ⟨resetCore_reset, rfl, rfl, rfl, rfl, hstatus⟩

/-- Settles O32, field by field from the lemmas of `resetStep`. -/
theorem resetKeepsExternal : Obligations.ResetKeepsExternal := by
  unfold Obligations.ResetKeepsExternal
  exact fun s m hm => ⟨_, step_reset hm, resetStep_sink _, resetStep_src _, resetStep_busy _, resetStep_walkP _,
    resetStep_walkN _, resetStep_resValid _, resetStep_eos _⟩

end Sys2Proof.Machine
end

section
/-! Completeness as the Kraft equality (40_code_table.md R106, the general knowledge G1), by counting the strings of one
length: those that begin with a code of `b` bits are `2^(n - b)`, and no string begins with two codes (R104). -/

namespace Sys2Proof.Machine

/-- The strings of `n` bits that begin with `c`. -/
def stringsBeginning (n : Nat) (c : BitString) : Finset (List.Vector Bool n) :=
  Finset.univ.filter fun x => c <+: x.toList

@[simp] theorem mem_stringsBeginning {n : Nat} {c : BitString} {x : List.Vector Bool n} :
    x ∈ stringsBeginning n c ↔ c <+: x.toList := by
  simp [stringsBeginning]

/-- `c` followed by the bits of `y`. -/
def codeThen (c : BitString) {k : Nat} (y : List.Vector Bool k) : List.Vector Bool (c.length + k) :=
  ⟨c ++ y.toList, by simp⟩

theorem codeThen_injective (c : BitString) {k : Nat} : Function.Injective (codeThen c (k := k)) := fun y z h =>
  List.Vector.eq y z (List.append_cancel_left (congrArg List.Vector.toList h))

theorem stringsBeginning_eq_image (c : BitString) (k : Nat) :
    stringsBeginning (c.length + k) c = Finset.univ.image (codeThen c (k := k)) := by
  ext x
  simp only [mem_stringsBeginning, Finset.mem_image, Finset.mem_univ, true_and]
  constructor
  · rintro ⟨y, hy⟩
    have hlen : y.length = k := by simpa using congrArg List.length hy
    exact ⟨⟨y, hlen⟩, List.Vector.eq _ _ hy⟩
  · rintro ⟨y, rfl⟩
    exact List.prefix_append c y.toList

theorem card_stringsBeginning {n : Nat} {c : BitString} (h : c.length ≤ n) :
    (stringsBeginning n c).card = 2 ^ (n - c.length) := by
  obtain ⟨k, rfl⟩ := Nat.exists_eq_add_of_le h
  rw [stringsBeginning_eq_image, Finset.card_image_of_injective _ (codeThen_injective c), Finset.card_univ,
    card_vector, Fintype.card_bool, Nat.add_sub_cancel_left]

/-- A sum over the ROM's entries, read by symbol. -/
theorem sum_map_toList (T : CodeTable) (f : RomEntry → Nat) :
    (T.toList.map f).sum = ∑ i : Fin 256, f (romRead T (BitVec.ofFin i)) := by
  rw [← Fin.sum_univ_fun_getElem]
  exact Fintype.sum_equiv (finCongr (by simp)) _ _ fun _ => by rw [romRead_eq_getElem]; rfl

/-- The strings of `n` bits that begin with some symbol's code. -/
def codedStrings (n : Nat) (T : CodeTable) : Finset (List.Vector Bool n) :=
  Finset.univ.biUnion fun i : Fin 256 => stringsBeginning n (codeString (romRead T (BitVec.ofFin i)))

theorem mem_codedStrings {n : Nat} {T : CodeTable} {x : List.Vector Bool n} :
    x ∈ codedStrings n T ↔ ∃ v, codeString (romRead T v) <+: x.toList := by
  simp only [codedStrings, Finset.mem_biUnion, Finset.mem_univ, true_and, mem_stringsBeginning]
  exact ⟨fun ⟨i, hi⟩ => ⟨BitVec.ofFin i, hi⟩, fun ⟨v, hv⟩ => ⟨v.toFin, hv⟩⟩

/-- The Kraft sum counts the strings that begin with a code, as no string begins with two (R104). -/
theorem card_codedStrings {n : Nat} {T : CodeTable} (hlen : ∀ v, (romRead T v).bits.toNat ≤ n)
    (hfree : CodesPrefixFree T) :
    (codedStrings n T).card = (T.toList.map fun e => 2 ^ (n - e.bits.toNat)).sum := by
  rw [sum_map_toList, codedStrings, Finset.card_biUnion]
  · refine Finset.sum_congr rfl fun i _ => ?_
    rw [card_stringsBeginning (by simpa using hlen _), codeString_length]
  · intro i _ j _ hij
    refine Finset.disjoint_left.mpr fun x hi hj => hij ?_
    rw [mem_stringsBeginning] at hi hj
    exact BitVec.ofFin.inj (eq_of_codes_prefix hfree hi hj)

/-- R105 asks that every 32-bit string begins with a code. -/
theorem codesComplete_iff_codedStrings (T : CodeTable) : CodesComplete T ↔ codedStrings 32 T = Finset.univ := by
  simp only [Finset.eq_univ_iff_forall, mem_codedStrings]
  exact ⟨fun h x => h x.toList x.toList_length, fun h x hx => h ⟨x, hx⟩⟩

/-- Settles O48: the strings that begin with a code are all of them exactly when there are `2^32`. -/
theorem kraftEquality : Obligations.KraftEquality := by
  unfold Obligations.KraftEquality
  intro T hlen hfree
  rw [codesComplete_iff_codedStrings, ← Finset.card_eq_iff_eq_univ, card_codedStrings (fun v => (hlen v).2) hfree,
    card_vector, Fintype.card_bool]

end Sys2Proof.Machine
end
